-- ==== Sys2Proof/Word.lean ====
section
/-! DEFINITION. The words of the block: the widths of its registers and ports (spec 10_state.md R20, R23 to R29),
and what a decoder is handed in each of the three formats of 30_encoding.md R80. -/
namespace Sys2Proof

/-- A binary64 datum, as its 64-bit encoding (40_bisector.md R100). -/
abbrev F64 := BitVec 64

/-- A direction word: one bit per bisection step, the coarsest at bit 31 (10_state.md R29). -/
abbrev DirWord := BitVec 32

/-- The interleaved word, sequence position `j` at bit `63 - j` (10_state.md R30). -/
abbrev IlWord := BitVec 64

/-- The 5-bit symbol of one output character (00_scope.md R18). -/
abbrev Symbol := BitVec 5

/-- An 8-bit output character code (42_packer.md R150). -/
abbrev CharCode := BitVec 8

/-- The control vector `CV` of 30_encoding.md R82. -/
abbrev ControlVector := BitVec 9

/-- The request word `REQ` of 30_encoding.md R81. -/
abbrev RequestWord := BitVec 160

/-- The three combinational functions of format COMB (30_encoding.md R86). The format has no bits and no selector. -/
inductive CombFn where
  | interleave
  | packSym
  | lutChar
  deriving DecidableEq, Repr

/-- What a decoder reads, by format (30_encoding.md R80): a request word, a control vector, or, for the format that has
no bits, the name of the combinational function. -/
inductive FetchWord where
  | req (w : RequestWord)
  | ctl (cv : ControlVector)
  | comb (f : CombFn)
  deriving DecidableEq, Repr

end Sys2Proof
end

