-- ==== Sys2Proof/Config.lean ====
section
/-! DEFINITION. The implementation parameters (00_scope.md R8; R9: none is left open), and the free values: constants
without a body, of which nothing can be proved. -/
namespace Sys2Proof.Config

/-- `STEPS`: bisection steps per axis, for every request. -/
def steps : Nat := 32
/-- `NBITS`: length of the interleaved sequence. -/
def nbits : Nat := 64
/-- `SYMBITS`: bits per output character. -/
def symBits : Nat := 5
/-- `MAX_PREC`: largest precision accepted. -/
def maxPrec : Nat := 12
/-- `MIN_PREC`: smallest precision accepted. -/
def minPrec : Nat := 1

/-- The word an unspecified register holds after a RESET edge, one for each index: 70_reset_and_hazards.md R230 fixes no
value. DESIGN CHOICE (log 3): a free value. -/
opaque freeWord : Nat → BitVec 64

/-- The sign and payload of the NaN that an addition with a NaN, or of opposite infinities, delivers; the spec states
none (40_bisector.md R106). PRESUMED (log 4): a free value, applied to the operands. -/
opaque addNaNBits : F64 → F64 → BitVec 64

/-- The same for a division with a NaN, 0/0 and inf/inf. PRESUMED (log 4): a free value, applied to the operands. -/
opaque divNaNBits : F64 → F64 → BitVec 64

end Sys2Proof.Config
end

