-- ==== Sys2Proof/Machine/Float.lean ====
section
/-! DEFINITION. The binary64 arithmetic of the bisector (40_bisector.md section 1). A finite datum is an integer multiple
of 2^-1074; `scaled` is that integer, so sums and comparisons are exact integer arithmetic, and one function rounds. -/
namespace Sys2Proof.Machine

/-! ### The format, R100 -/

def f64Sign (a : F64) : Bool := a.getLsbD 63
def f64Exp (a : F64) : Nat := (a.extractLsb' 52 11).toNat
def f64Frac (a : F64) : Nat := (a.extractLsb' 0 52).toNat

def f64IsNaN (a : F64) : Bool := f64Exp a == 0x7FF && f64Frac a != 0
def f64IsInf (a : F64) : Bool := f64Exp a == 0x7FF && f64Frac a == 0
def f64IsFinite (a : F64) : Bool := f64Exp a != 0x7FF
def f64IsZero (a : F64) : Bool := f64Exp a == 0 && f64Frac a == 0

/-- The magnitude of a finite datum, in units of 2^-1074. A subnormal keeps its exact value (R105). -/
def f64Mag (a : F64) : Nat :=
  if f64Exp a = 0 then f64Frac a else (2 ^ 52 + f64Frac a) <<< (f64Exp a - 1)

/-- The exact value of a finite datum, in units of 2^-1074. -/
def f64Scaled (a : F64) : Int := if f64Sign a then -(f64Mag a : Int) else (f64Mag a : Int)

/-- Put the sign bit before an encoding of 63 bits. -/
def f64WithSign (neg : Bool) (bits : Nat) : F64 := BitVec.ofBool neg ++ BitVec.ofNat 63 bits

def f64Inf (neg : Bool) : F64 := f64WithSign neg (0x7FF <<< 52)
def f64Zero (neg : Bool) : F64 := f64WithSign neg 0

/-- A quiet NaN whose sign and 51-bit payload are those of `free`. PRESUMED (log 4). -/
def f64NaNOf (free : BitVec 64) : F64 := f64WithSign (free.getLsbD 63) ((0xFFF <<< 51) ||| (free.extractLsb' 0 51).toNat)

/-! ### Rounding to nearest, ties to even (R101, R102) -/

/-- The binary64 datum nearest to `num / den` units of 2^-1074, ties to even, with the given sign; infinity when the
rounded magnitude is too large. The quotient is cut to at most 53 bits; `shift` is how far its last bit lies above
2^-1074, and `shift * 2^52 + m` is then the encoding, for subnormals and for a carry out of the significand too. -/
def f64Round (neg : Bool) (num den : Nat) : F64 :=
  let shift := Nat.log2 (num / den) - 52
  let unit := den <<< shift
  let q := num / unit
  let r := num % unit
  let m := if unit < 2 * r ∨ (unit = 2 * r ∧ q % 2 = 1) then q + 1 else q
  let bits := (shift <<< 52) + m
  if 0x7FF <<< 52 ≤ bits then f64Inf neg else f64WithSign neg bits

/-- R101: binary64 addition, rounded to nearest, ties to even. An exact zero sum is -0 only when both operands are
negative. -/
def f64Add (a b : F64) : F64 :=
  if f64IsNaN a || f64IsNaN b then f64NaNOf (Config.addNaNBits a b)
  else if f64IsInf a then
    if f64IsInf b && (f64Sign a != f64Sign b) then f64NaNOf (Config.addNaNBits a b) else a
  else if f64IsInf b then b
  else
    let n := f64Scaled a + f64Scaled b
    if n = 0 then f64Zero (f64Sign a && f64Sign b) else f64Round (decide (n < 0)) n.natAbs 1

/-- R102: binary64 division, rounded to nearest, ties to even. -/
def f64Div (a b : F64) : F64 :=
  let neg := f64Sign a != f64Sign b
  if f64IsNaN a || f64IsNaN b then f64NaNOf (Config.divNaNBits a b)
  else if f64IsInf a then
    if f64IsInf b then f64NaNOf (Config.divNaNBits a b) else f64Inf neg
  else if f64IsInf b then f64Zero neg
  else if f64IsZero b then
    if f64IsZero a then f64NaNOf (Config.divNaNBits a b) else f64Inf neg
  else f64Round neg (f64Mag a <<< 1074) (f64Mag b)

/-! ### The bisector's primitives -/

/-- `TWO`, 10_state.md R31. -/
def f64Two : F64 := 0x4000000000000000
/-- `LAT_MIN`, 10_state.md R31. -/
def latMin : F64 := 0xC056800000000000
/-- `LAT_MAX`, 10_state.md R31. -/
def latMax : F64 := 0x4056800000000000
/-- `LON_MIN`, 10_state.md R31. -/
def lonMin : F64 := 0xC066800000000000
/-- `LON_MAX`, 10_state.md R31. -/
def lonMax : F64 := 0x4066800000000000

/-- R103: `(low + high) / 2`, the sum first. -/
def f64Mid (a b : F64) : F64 := f64Div (f64Add a b) f64Two

/-- R104: the source's `value >= mid`, row by row of the rule's table. -/
def f64Ge (a b : F64) : Bool :=
  if f64IsNaN a then false
  else if f64IsNaN b then false
  else if f64IsZero a && f64IsZero b then true
  else if f64IsInf a && !f64Sign a then true
  else if f64IsInf a then f64IsInf b && f64Sign b
  else if f64IsInf b then f64Sign b
  else decide (f64Scaled b ≤ f64Scaled a)

end Sys2Proof.Machine
end

