-- ==== Sys2Proof/Syntax.lean ====
section
/-! DEFINITION. The operations of `geogrid-CORE ops v1` (00_scope.md R2): one constructor per row of
spec/opcode_table.json. Only ENCODE has operand fields in its encoding (30_encoding.md R81); the CTL and COMB rows take
their operands from the registers and the input ports. -/
namespace Sys2Proof

inductive Instr where
  /-- REQ row ENCODE, 43_sequencer.md R170. -/
  | encode (lat lon : F64) (prec : BitVec 32)
  /-- CTL row RESET, 70_reset_and_hazards.md R230. -/
  | reset
  /-- CTL row IDLE_WAIT, 43_sequencer.md R173. -/
  | idleWait
  /-- CTL row REJECT, 43_sequencer.md R175. -/
  | reject
  /-- CTL row INIT, 43_sequencer.md R174. -/
  | init
  /-- CTL row BISECT_STEP, 40_bisector.md R109 and 43_sequencer.md R176. -/
  | bisectStep
  /-- CTL row EMIT_HOLD, 43_sequencer.md R177. -/
  | emitHold
  /-- CTL row EMIT_CHAR, 43_sequencer.md R178. -/
  | emitChar
  /-- CTL row ERR_HOLD, 43_sequencer.md R179. -/
  | errHold
  /-- CTL row ERR_RSP, 43_sequencer.md R180. -/
  | errRsp
  /-- CTL row RESERVED_ST, 60_exceptions.md R205. -/
  | reservedSt
  /-- COMB row INTERLEAVE, 41_interleaver.md R140. -/
  | interleave
  /-- COMB row PACK_SYM, 42_packer.md R151. -/
  | packSym
  /-- COMB row LUT_CHAR, 42_packer.md R152. -/
  | lutChar
  deriving DecidableEq, Repr

end Sys2Proof
end

