-- ==== Sys2Proof/WellFormed.lean ====
section
/-! DEFINITION. What is well formed. Every instruction is: the request word admits every value of every field, and the
other rows have no operand field (30_encoding.md R85, R87). What can be ill formed is a number offered as an instruction's
word: its width must be that of a row, and no bit may stand above that row's own bits. -/
namespace Sys2Proof

/-- 30_encoding.md R85 ("Every value of every field is admitted") and R87 ("In `REQ`: no encoding is illegal or
reserved"). -/
def Instr.wellFormed : Instr → Bool
  | .encode _ _ _ => true
  | .reset => true
  | .idleWait => true
  | .reject => true
  | .init => true
  | .bisectStep => true
  | .emitHold => true
  | .emitChar => true
  | .errHold => true
  | .errRsp => true
  | .reservedSt => true
  | .interleave => true
  | .packSym => true
  | .lutChar => true

/-- The widths, in whole bytes, under which a row's word is offered (log 7): REQ 160; CTL 9 bits in 16; a COMB row, which
has no bits of its own (30_encoding.md R80), the width of the inputs spec/opcode_table.json lists for it. -/
def rawWidthOk (nbits : Nat) : Bool :=
  nbits == 160 || nbits == 16 || nbits == 32 || nbits == 64 || nbits == 8 || nbits == 0

/-- How many low bits of a word of that width may be used. -/
def rawUsedBits (nbits : Nat) : Nat :=
  if nbits == 16 then 9 else if nbits == 8 then Config.symBits else nbits

/-- A number `w` offered as a word of `nbits` bits is well formed. -/
def rawWordOk (nbits w : Nat) : Bool := rawWidthOk nbits && decide (w < 2 ^ rawUsedBits nbits)

end Sys2Proof
end

