-- ==== Sys2Proof/Decode.lean ====
section
/-! DEFINITION. The decoder (30_encoding.md R80 to R87) and, after it, the encoder. -/
namespace Sys2Proof

/-! ### Format CTL -/

/-- One row of the opcode map of 30_encoding.md R84: it matches when `cv &&& mask = pattern`. -/
structure CtlRow where
  instr : Instr
  pattern : ControlVector
  mask : ControlVector
  deriving DecidableEq, Repr

def CtlRow.hits (r : CtlRow) (cv : ControlVector) : Bool := cv &&& r.mask == r.pattern

/-- The opcode map of 30_encoding.md R84, row by row. -/
def ctlRows : List CtlRow :=
  [ ⟨.reset, 0x100, 0x100⟩,
    ⟨.idleWait, 0x000, 0x1F0⟩,
    ⟨.reject, 0x010, 0x1F8⟩,
    ⟨.init, 0x018, 0x1F8⟩,
    ⟨.bisectStep, 0x020, 0x1E0⟩,
    ⟨.emitHold, 0x040, 0x1E2⟩,
    ⟨.emitChar, 0x042, 0x1E2⟩,
    ⟨.errHold, 0x060, 0x1E2⟩,
    ⟨.errRsp, 0x062, 0x1E2⟩,
    ⟨.reservedSt, 0x080, 0x180⟩ ]

/-- The micro-operation a control vector selects: the row that matches it (R82, R84). -/
def decodeCtl (cv : ControlVector) : Option Instr :=
  (ctlRows.find? (fun r => r.hits cv)).map CtlRow.instr

/-! ### Format REQ -/

/-- `lat` is `REQ[159:96]` (R81). -/
def reqLat (w : RequestWord) : F64 := w.extractLsb' 96 64
/-- `lon` is `REQ[95:32]` (R81). -/
def reqLon (w : RequestWord) : F64 := w.extractLsb' 32 64
/-- `prec` is `REQ[31:0]` (R81). -/
def reqPrec (w : RequestWord) : BitVec 32 := w.extractLsb' 0 32
/-- `REQ[159:0] = {req_lat, req_lon, req_prec}` (R81). -/
def reqWord (lat lon : F64) (prec : BitVec 32) : RequestWord := lat ++ lon ++ prec

/-- R85: every 160-bit word is an ENCODE. -/
def decodeReq (w : RequestWord) : Instr := .encode (reqLat w) (reqLon w) (reqPrec w)

/-! ### Format COMB -/

/-- R86: the functions have no selector; each is its own row. -/
def decodeComb : CombFn → Instr
  | .interleave => .interleave
  | .packSym => .packSym
  | .lutChar => .lutChar

/-- The decoder of the block. -/
def decode : FetchWord → Option Instr
  | .req w => some (decodeReq w)
  | .ctl cv => decodeCtl cv
  | .comb f => some (decodeComb f)

/-! ### Words as numbers, in the numbering of spec/opcode_table.json (log 7) -/

/-- Why a number is not an instruction's word. -/
inductive DecodeError where
  /-- no row has a word of this width -/
  | noRowOfThisWidth
  /-- a bit is set above the row's own bits -/
  | bitsAboveTheRow
  /-- no row of the control map matches (R84: this cannot happen) -/
  | noRowMatches
  deriving DecidableEq, Repr

/-- The word that the number `w` of `nbits` bits stands for. A width of 0 is that of the REQ row, whose match and mask
are 0: the request word of all zeros. -/
def rawFetchWord (nbits w : Nat) : Except DecodeError FetchWord :=
  if rawWidthOk nbits = false then .error .noRowOfThisWidth
  else if rawWordOk nbits w = false then .error .bitsAboveTheRow
  else if nbits = 160 ∨ nbits = 0 then .ok (.req (BitVec.ofNat 160 w))
  else if nbits = 16 then .ok (.ctl (BitVec.ofNat 9 w))
  else if nbits = 32 then .ok (.comb .interleave)
  else if nbits = 64 then .ok (.comb .packSym)
  else .ok (.comb .lutChar)

/-- The decoder on numbers, total, rejecting by name. -/
def decodeRaw (nbits w : Nat) : Except DecodeError Instr :=
  match rawFetchWord nbits w with
  | .error e => .error e
  | .ok word =>
    match decode word with
    | some i => .ok i
    | none => .error .noRowMatches

/-- The instruction the decoder reads from a table row's word. -/
def decodeTableWord (nbits w : Nat) : Option Instr :=
  match decodeRaw nbits w with
  | .ok i => some i
  | .error _ => none

/-! ### The encoder -/

/-- The word of an instruction, with every don't-care bit of a CTL row 0 (30_encoding.md R81, R84, R86). -/
def encode : Instr → FetchWord
  | .encode lat lon prec => .req (reqWord lat lon prec)
  | .reset => .ctl 0b1_000_0_0_0_0_0
  | .idleWait => .ctl 0b0_000_0_0_0_0_0
  | .reject => .ctl 0b0_000_1_0_0_0_0
  | .init => .ctl 0b0_000_1_1_0_0_0
  | .bisectStep => .ctl 0b0_001_0_0_0_0_0
  | .emitHold => .ctl 0b0_010_0_0_0_0_0
  | .emitChar => .ctl 0b0_010_0_0_0_1_0
  | .errHold => .ctl 0b0_011_0_0_0_0_0
  | .errRsp => .ctl 0b0_011_0_0_0_1_0
  | .reservedSt => .ctl 0b0_100_0_0_0_0_0
  | .interleave => .comb .interleave
  | .packSym => .comb .packSym
  | .lutChar => .comb .lutChar

/-- A word's width in whole bytes and its value as a number. -/
def FetchWord.raw : FetchWord → Nat × Nat
  | .req w => (160, w.toNat)
  | .ctl cv => (16, cv.toNat)
  | .comb .interleave => (32, 0)
  | .comb .packSym => (64, 0)
  | .comb .lutChar => (8, 0)

end Sys2Proof
end

