-- ==== Sys2Proof/Machine/State.lean ====
section
/-! DEFINITION. The state of the block as plain data (10_state.md), the host's coming actions beside it
(60_exceptions.md R217), and the reasons a step can stop. -/
namespace Sys2Proof.Machine

/-! ### The block's registers -/

/-- The registers of one bisector lane (10_state.md R27 to R29): for latitude `LAT_IN`, `LAT_LO`, `LAT_MID`, `LAT_HI`
and `LATD`; for longitude the same with `LON`. -/
structure Lane where
  value : F64
  lo : F64
  mid : F64
  hi : F64
  dirs : DirWord
  deriving DecidableEq, Repr

/-- The input ports of 10_state.md R20, but for `clk`: one step is one rising edge. -/
structure Pins where
  rst : Bool
  reqValid : Bool
  reqLat : F64
  reqLon : F64
  reqPrec : BitVec 32
  rspReady : Bool
  deriving DecidableEq, Repr

/-- The payload of a response beat: `rsp_char`, `rsp_sym`, `rsp_idx`, `rsp_last`, `rsp_err`, `rsp_code` (20_memory.md
R68). -/
structure Beat where
  char : CharCode
  sym : Symbol
  idx : BitVec 4
  last : Bool
  err : Bool
  code : BitVec 2
  deriving DecidableEq, Repr

/-- The values last observed on the combinational nets `IL`, `SYM` and `CHAR` by a COMB row. The model's own; no rule of
the block reads it. DESIGN CHOICE (log 8). -/
structure Nets where
  il : IlWord
  sym : Symbol
  char : CharCode
  deriving DecidableEq, Repr

/-! ### The host -/

/-- One action of the host (60_exceptions.md R217) that a script can hold. DESIGN CHOICE (log 6). -/
inductive Move where
  /-- Drive the input ports; the step is one rising edge. -/
  | edge (pins : Pins)
  /-- Present one request and take its whole response; the step is the whole ENCODE command (log 5). -/
  | request (w : RequestWord)
  /-- Observe one combinational net; no edge happens. -/
  | observe (f : CombFn)
  deriving DecidableEq, Repr

/-- `READY always` and `READY odd` of 30_encoding.md R88. -/
inductive ReadyPattern where
  | always
  | odd
  deriving DecidableEq, Repr

/-- What the host will do: first the moves of `script`; when it is empty, the request program of 30_encoding.md R88 whose
ENCODE lines not yet taken are `requests`, whose RESET lines are `resets`, and whose next edge is number `edge`.
DESIGN CHOICE (log 10). -/
structure Bench where
  script : List Move
  requests : List RequestWord
  ready : ReadyPattern
  resets : List Nat
  edge : Nat
  deriving DecidableEq, Repr

/-! ### The state -/

structure State where
  /-- `ST[2:0]`, 10_state.md R23. -/
  st : BitVec 3
  /-- `K[4:0]`, 10_state.md R24. -/
  k : BitVec 5
  /-- `I[3:0]`, 10_state.md R25. -/
  i : BitVec 4
  /-- `PREC[3:0]`, 10_state.md R26. -/
  prec : BitVec 4
  /-- The latitude lane's registers. -/
  lat : Lane
  /-- The longitude lane's registers. -/
  lon : Lane
  /-- Whether `prec`, `lat` and `lon` have been written since the last RESET edge (10_state.md R35, R36). DEDUCED
  (log 2). -/
  written : Bool
  /-- The input ports at this edge. -/
  pins : Pins
  /-- The host's coming actions. The model's own. -/
  bench : Bench
  /-- The response beats taken, oldest first. The model's own (log 9). -/
  beats : List Beat
  /-- The model's own (log 8). -/
  nets : Nets
  /-- The index of the next free value. The model's own (log 3). -/
  freeIdx : Nat
  deriving DecidableEq, Repr

/-- `ST` = IDLE. -/
def IDLE : BitVec 3 := 0b000
/-- `ST` = BISECT. -/
def BISECT : BitVec 3 := 0b001
/-- `ST` = EMIT. -/
def EMIT : BitVec 3 := 0b010
/-- `ST` = ERROR. -/
def ERROR : BitVec 3 := 0b011

/-- The model faults of 60_exceptions.md R206, exactly three. Each names a state the rules never reach. -/
inductive Fault where
  /-- Raised by RESERVED_ST, and by ENCODE in a reserved `ST`: `ST` is 0b100 to 0b111 (R205). Safe: the model stops where
  the hardware's behaviour is not specified. -/
  | reservedState
  /-- Raised by BISECT_STEP, EMIT_CHAR, INTERLEAVE, PACK_SYM and LUT_CHAR: a data register is read that nothing has written
  since the last RESET edge (10_state.md R35, R36; 60_exceptions.md R206; 93_implementation_defined.md E1).
  Safe: the model stops where the register's value is not specified. -/
  | unwrittenRead
  /-- Raised by EMIT_CHAR, PACK_SYM and LUT_CHAR: a symbol is asked for a character index above 11 (42_packer.md R151).
  Safe: the model stops where the sequence has no such position. -/
  | packPastEnd
  deriving DecidableEq, Repr

/-- Why a step has no meaning. -/
inductive Refusal where
  /-- Raised by an arm of `exec` that has no meaning yet; no arm is left. Safe. -/
  | notModelled (mnemonic : String)
  /-- Raised by `step` when the decoder gives the fetched word no row; 30_encoding.md R84 says that cannot happen.
  Safe. -/
  | undecoded
  deriving DecidableEq, Repr

/-! ### Reset -/

/-- A data register whose reset value is unspecified (10_state.md R35). DESIGN CHOICE (log 1): zero. -/
def Lane.reset : Lane := { value := 0, lo := 0, mid := 0, hi := 0, dirs := 0 }

/-- The input ports before the host drives them. DESIGN CHOICE (log 13): low. -/
def Pins.low : Pins :=
  { rst := false, reqValid := false, reqLat := 0, reqLon := 0, reqPrec := 0, rspReady := false }

/-- No move, no request, `READY always`, next edge 0 (30_encoding.md R88). -/
def Bench.empty : Bench := { script := [], requests := [], ready := .always, resets := [], edge := 0 }

/-- The state after a RESET edge (10_state.md R35). -/
def State.reset : State :=
  { st := IDLE, k := 0, i := 0, prec := 0, lat := Lane.reset, lon := Lane.reset, written := false,
    pins := Pins.low, bench := Bench.empty, beats := [], nets := { il := 0, sym := 0, char := 0 }, freeIdx := 0 }

end Sys2Proof.Machine
end

