-- ==== Sys2Proof/Machine/Flags.lean ====
section
/-! DEFINITION. The condition bits of the control vector (30_encoding.md R83) and the status signals (10_state.md R32).
The block has no condition codes and no floating-point flags, so no operation writes a flag. -/
namespace Sys2Proof.Machine

/-- `prec_ok` (R83, 43_sequencer.md R172): all 32 bits, as a two's complement integer. -/
def precOk (p : BitVec 32) : Bool :=
  decide ((Config.minPrec : Int) ≤ p.toInt) && decide (p.toInt ≤ (Config.maxPrec : Int))

/-- `k_last` (R83): this is the 32nd step. -/
def kLast (k : BitVec 5) : Bool := k.toNat + 1 == Config.steps

/-- `i_last` (R83). -/
def iLast (i prec : BitVec 4) : Bool := i.toNat + 1 == prec.toNat

/-- `busy` (43_sequencer.md R182). -/
def busy (st : BitVec 3) : Bool := st != IDLE

/-- `rsp_err` (10_state.md R32). -/
def rspErr (st : BitVec 3) : Bool := st == ERROR

/-- `rsp_code` (10_state.md R32): 1 for InvalidPrecision, else 0; 2 and 3 are never driven. -/
def rspCode (st : BitVec 3) : BitVec 2 := if st == ERROR then 1 else 0

/-- `req_ready` (43_sequencer.md R182). -/
def reqReady (st : BitVec 3) (rst : Bool) : Bool := st == IDLE && !rst

/-- `rsp_valid` (43_sequencer.md R182). -/
def rspValid (st : BitVec 3) (rst : Bool) : Bool := (st == EMIT || st == ERROR) && !rst

end Sys2Proof.Machine
end

