-- ==== Sys2Proof/Machine/Operands.lean ====
section
/-! DEFINITION. Operand assembly (30_encoding.md R82, R83): the control vector, the request fields, and the pins a host
drives to present a request. -/
namespace Sys2Proof.Machine

/-- `CV` of R82: `{rst, ST, req_valid, prec_ok, k_last, rsp_ready, i_last}`. While nothing has written `PREC`, its
`i_last` bit is 0: `PREC` then has no value to read (10_state.md R36), and no row of the map reads the bit. DESIGN CHOICE
(log 2). -/
def controlVector (s : State) : ControlVector :=
  BitVec.ofBool s.pins.rst ++ s.st ++ BitVec.ofBool s.pins.reqValid ++ BitVec.ofBool (precOk s.pins.reqPrec)
    ++ BitVec.ofBool (kLast s.k) ++ BitVec.ofBool s.pins.rspReady ++ BitVec.ofBool (s.written && iLast s.i s.prec)

/-- `PREC <- req_prec[3:0]` (R83). -/
def precField (p : BitVec 32) : BitVec 4 := p.extractLsb' 0 4

/-- A request handshake happens at this edge (43_sequencer.md R171). -/
def requestHandshake (st : BitVec 3) (p : Pins) : Bool := p.reqValid && reqReady st p.rst

/-- A response beat happens at this edge (43_sequencer.md R171). -/
def responseBeat (st : BitVec 3) (p : Pins) : Bool := p.rspReady && rspValid st p.rst

/-- The consumer's `rsp_ready` at edge `n` (30_encoding.md R88). -/
def ReadyPattern.at (r : ReadyPattern) (n : Nat) : Bool :=
  match r with
  | .always => true
  | .odd => n % 2 == 1

/-- The pins at the next edge of a request program (30_encoding.md R88): the first request not yet taken is presented. -/
def Bench.pins (b : Bench) : Pins :=
  { rst := b.resets.contains b.edge,
    reqValid := !b.requests.isEmpty,
    reqLat := reqLat (b.requests.headD 0),
    reqLon := reqLon (b.requests.headD 0),
    reqPrec := reqPrec (b.requests.headD 0),
    rspReady := b.ready.at b.edge }

/-- A request program after one edge (30_encoding.md R88: the next request is presented as soon as this one is taken). -/
def Bench.advance (b : Bench) (taken : Bool) : Bench :=
  { b with requests := if taken then b.requests.tail else b.requests, edge := b.edge + 1 }

end Sys2Proof.Machine
end

