-- ==== Sys2Proof/Machine/Packer.lean ====
section
/-! DEFINITION. The combinational units: the interleaver (41_interleaver.md) and the base-32 packer (42_packer.md). -/
namespace Sys2Proof.Machine

/-! ### The interleaver, R140 -/

/-- `IL[63:0]` from the first `n` of the loop's steps `i`: `IL[63 - 2i] = LOND[31 - i]`, `IL[62 - 2i] = LATD[31 - i]`. -/
def interleaveFrom (latd lond : DirWord) : Nat → IlWord
  | 0 => 0
  | n + 1 =>
    interleaveFrom latd lond n
      ||| ((BitVec.ofBool (lond.getLsbD (31 - n))).setWidth 64 <<< (63 - 2 * n))
      ||| ((BitVec.ofBool (latd.getLsbD (31 - n))).setWidth 64 <<< (63 - (2 * n + 1)))

/-- INTERLEAVE (R140): the loop over `i` in 0..31. -/
def interleave (latd lond : DirWord) : IlWord := interleaveFrom latd lond 32

/-! ### The packer, R150 to R152 -/

/-- The alphabet ROM (R150). -/
def alphabet : Vector CharCode 32 :=
  #v[0x30, 0x31, 0x32, 0x33, 0x34, 0x35, 0x36, 0x37,
     0x38, 0x39, 0x62, 0x63, 0x64, 0x65, 0x66, 0x67,
     0x68, 0x6A, 0x6B, 0x6D, 0x6E, 0x70, 0x71, 0x72,
     0x73, 0x74, 0x75, 0x76, 0x77, 0x78, 0x79, 0x7A]

/-- The symbol's value after the loop's first `t` steps: `v = (v << 1) | IL[63 - (5i + t)]` (R151). -/
def packFrom (il : IlWord) (i : Nat) : Nat → Nat
  | 0 => 0
  | t + 1 => 2 * packFrom il i t + (il.getLsbD (63 - (5 * i + t))).toNat

/-- PACK_SYM (R151): `SYM` of the character with index `i`; no value for an index above 11, which a model must not
compute. -/
def packSym (il : IlWord) (i : BitVec 4) : Option Symbol :=
  if Config.maxPrec ≤ i.toNat then none else some (BitVec.ofNat 5 (packFrom il i.toNat Config.symBits))

/-- LUT_CHAR (R152): `CHAR = ALPHABET[SYM]`. Every symbol is an index of the ROM (20_memory.md R61). -/
def lutChar (sym : Symbol) : CharCode := alphabet[sym.toNat]'(sym.isLt)

end Sys2Proof.Machine
end

