-- ==== Sys2Proof/Machine/Ops.lean ====
section
/-! DEFINITION. The named operations over the state that the meanings share. -/
namespace Sys2Proof.Machine

/-- What an instruction answers. -/
abbrev Result := Host.Outcome State Fault Refusal

/-! ### Writing the state -/

def State.setSt (s : State) (st : BitVec 3) : State := { s with st := st }
def State.setK (s : State) (k : BitVec 5) : State := { s with k := k }
def State.setI (s : State) (i : BitVec 4) : State := { s with i := i }
def State.setLanes (s : State) (lat lon : Lane) : State := { s with lat := lat, lon := lon }
def State.setNets (s : State) (n : Nets) : State := { s with nets := n }

/-- INIT's write of the data registers: from here on they hold a value (10_state.md R36). -/
def State.loadData (s : State) (prec : BitVec 4) (lat lon : Lane) : State :=
  { s with prec := prec, lat := lat, lon := lon, written := true }

/-- RESET's effect on the data registers (70_reset_and_hazards.md R230): they become unspecified. DESIGN CHOICE (log 3):
`n` of the free values are used up. -/
def State.dropData (s : State) (prec : BitVec 4) (lat lon : Lane) (n : Nat) : State :=
  { s with prec := prec, lat := lat, lon := lon, written := false, freeIdx := s.freeIdx + n }

/-- Beats taken by the consumer (20_memory.md R68; log 9). -/
def State.takeBeats (s : State) (b : List Beat) : State := { s with beats := s.beats ++ b }

/-- The host drives the pins for this edge and moves on. -/
def State.drive (s : State) (p : Pins) (b : Bench) : State := { s with pins := p, bench := b }

/-- The host goes on to its next move, the pins untouched. -/
def State.setBench (s : State) (b : Bench) : State := { s with bench := b }

/-! ### Reading the data registers -/

/-- A row that reads a data register, directly or through a net (10_state.md R35, R36): it faults when nothing has written
the register since the last RESET edge. DESIGN CHOICE (log 18): this fault comes before `packPastEnd` where both causes
hold. -/
def State.readData (s : State) (go : Result) : Result :=
  if s.written then go else .fault .unwrittenRead

/-! ### The exception (60_exceptions.md R200 to R204) -/

/-- Entry to InvalidPrecision (R203): to ERROR; no other register is written and nothing is saved. -/
def State.enterInvalidPrecision (s : State) : State := s.setSt ERROR

/-- The error beat (43_sequencer.md R180). -/
def errorBeat : Beat := { char := 0x00, sym := 0, idx := 0, last := true, err := true, code := 1 }

/-- Return from InvalidPrecision (R204): the consumer takes the error beat and the block is back in IDLE; nothing is
restored. -/
def State.returnFromError (s : State) : State := (s.takeBeats [errorBeat]).setSt IDLE

/-! ### The combinational nets of a state (10_state.md R30, 30_encoding.md R86) -/

/-- `IL`. -/
def State.ilNet (s : State) : IlWord := interleave s.lat.dirs s.lon.dirs

/-- `SYM`; none for an index above 11. -/
def State.symNet (s : State) : Option Symbol := packSym s.ilNet s.i

/-- The payload of character beat `i` with symbol `sym` (43_sequencer.md R178). -/
def charBeat (sym : Symbol) (i prec : BitVec 4) : Beat :=
  { char := lutChar sym, sym := sym, idx := i, last := iLast i prec, err := false, code := 0 }

/-- Something done with the symbol of the current index, which faults when there is none (42_packer.md R151). -/
def State.withSym (s : State) (go : Symbol → Result) : Result :=
  match s.symNet with
  | some v => go v
  | none => .fault .packPastEnd

/-! ### The output ports (43_sequencer.md R182) -/

/-- The output ports in one cycle. A payload field that is unspecified has no value. -/
structure Outputs where
  reqReady : Bool
  rspValid : Bool
  busy : Bool
  rspErr : Bool
  rspCode : BitVec 2
  rspChar : Option CharCode
  rspSym : Option Symbol
  rspIdx : Option (BitVec 4)
  rspLast : Option Bool
  deriving DecidableEq, Repr

/-- The beat that is presented, if one is: in EMIT the character beat, in ERROR the error beat. In a cycle with
`rsp_valid` = 0 the payload is unspecified (70_reset_and_hazards.md R238), and the model gives it no value. DEDUCED (log 11):
so it is in EMIT and ERROR in a cycle with `rst` = 1, where R182's equations alone would give one. -/
def State.payload (s : State) : Option Beat :=
  if Machine.rspValid s.st s.pins.rst then
    if s.st = EMIT then
      if s.written then s.symNet.map (fun v => charBeat v s.i s.prec) else none
    else some errorBeat
  else none

/-- R182, in a cycle whose `rst` is that of the pins. -/
def State.outputs (s : State) : Outputs :=
  { reqReady := Machine.reqReady s.st s.pins.rst,
    rspValid := Machine.rspValid s.st s.pins.rst,
    busy := Machine.busy s.st,
    rspErr := Machine.rspErr s.st,
    rspCode := Machine.rspCode s.st,
    rspChar := s.payload.map Beat.char,
    rspSym := s.payload.map Beat.sym,
    rspIdx := s.payload.map Beat.idx,
    rspLast := s.payload.map Beat.last }

end Sys2Proof.Machine
end

