-- ==== Sys2Proof/Machine/Comb.lean ====
section
/-! DEFINITION. The COMB rows (30_encoding.md R86): each observes the value of its net and writes no register of the
block. The value is put in `State.nets`, which nothing of the block reads (log 8). A net of unwritten direction words is a
read of an unspecified register and faults (10_state.md R35, R36, 60_exceptions.md R206). The net itself has a value in every
state, `State.ilNet` (41_interleaver.md R140). -/
namespace Sys2Proof.Machine

/-- INTERLEAVE (41_interleaver.md R140): `IL` of the two direction registers. -/
def execInterleave (s : State) : Result :=
  s.readData (.next (s.setNets { s.nets with il := s.ilNet }))

/-- PACK_SYM (42_packer.md R151): `SYM` of `IL` and `I`. -/
def execPackSym (s : State) : Result :=
  s.readData (s.withSym fun v => .next (s.setNets { s.nets with sym := v }))

/-- LUT_CHAR (42_packer.md R152): `CHAR` of `SYM`. -/
def execLutChar (s : State) : Result :=
  s.readData (s.withSym fun v => .next (s.setNets { s.nets with char := lutChar v }))

end Sys2Proof.Machine
end

