-- ==== Sys2Proof/Machine/Bisector.lean ====
section
/-! DEFINITION. The range bisector: the source's function as a reference (40_bisector.md R108), and BISECT_STEP. -/
namespace Sys2Proof.Machine

/-! ### The source's function, R108 -/

/-- The bracket triple `(low, mid, high)` (10_state.md R27). -/
structure Bracket where
  low : F64
  mid : F64
  high : F64
  deriving DecidableEq, Repr

/-- `BISECT(value, low, mid0, high, steps)` of R108: the direction bits, coarsest first, and the final bracket. The
starting midpoint is the caller's. -/
def bisect (value : F64) : Bracket → Nat → List Bool × Bracket
  | b, 0 => ([], b)
  | b, n + 1 =>
    match f64Ge value b.mid with
    | true =>
      match bisect value ⟨b.mid, f64Mid b.mid b.high, b.high⟩ n with
      | (d, r) => (true :: d, r)
    | false =>
      match bisect value ⟨b.low, f64Mid b.low b.mid, b.mid⟩ n with
      | (d, r) => (false :: d, r)

/-- The latitude lane's starting bracket (R110). -/
def latBracket : Bracket := ⟨latMin, f64Mid latMin latMax, latMax⟩
/-- The longitude lane's starting bracket (R110). -/
def lonBracket : Bracket := ⟨lonMin, f64Mid lonMin lonMax, lonMax⟩

/-! ### One lane -/

/-- A lane at the start of a request (R110, 43_sequencer.md R174): direction word cleared. -/
def Lane.load (value : F64) (b : Bracket) : Lane :=
  { value := value, lo := b.low, mid := b.mid, hi := b.high, dirs := 0 }

/-- One bisection step of a lane (R109); it reads no register of the other lane (R118). -/
def Lane.step (l : Lane) : Lane :=
  let b := f64Ge l.value l.mid
  let lo := if b then l.mid else l.lo
  let hi := if b then l.hi else l.mid
  { value := l.value, lo := lo, mid := f64Mid lo hi, hi := hi,
    dirs := l.dirs.extractLsb' 0 31 ++ BitVec.ofBool b }

/-! ### BISECT_STEP -/

/-- The sequencer's part of the edge (43_sequencer.md R176). -/
def State.countStep (s : State) : State :=
  if kLast s.k then ((s.setK 0).setI 0).setSt EMIT else s.setK (s.k + 1)

/-- BISECT_STEP (R109, R176). -/
def execBisectStep (s : State) : Result :=
  s.readData (.next ((s.setLanes s.lat.step s.lon.step).countStep))

end Sys2Proof.Machine
end

