-- ==== Sys2Proof/Machine/Command.lean ====
section
/-! DEFINITION. The ENCODE command as a whole (43_sequencer.md R170), written from the source's functions and not from
the micro-operations. -/
namespace Sys2Proof.Machine

/-- The interleaved sequence `s`: `s[2i] = dlon[i]`, `s[2i+1] = dlat[i]`. -/
def interleaveSeq : List Bool → List Bool → List Bool
  | o :: os, a :: as => o :: a :: interleaveSeq os as
  | _, _ => []

/-- Position `j` of a sequence, as 0 or 1. -/
def seqBit (s : List Bool) (j : Nat) : Nat := (s.getD j false).toNat

/-- `v = s[5i]*16 + s[5i+1]*8 + s[5i+2]*4 + s[5i+3]*2 + s[5i+4]`. -/
def seqSymbol (s : List Bool) (i : Nat) : Nat :=
  seqBit s (5 * i) * 16 + seqBit s (5 * i + 1) * 8 + seqBit s (5 * i + 2) * 4 + seqBit s (5 * i + 3) * 2
    + seqBit s (5 * i + 4)

/-- The beat of character `i` of `p`. -/
def seqBeat (s : List Bool) (p i : Nat) : Beat :=
  { char := lutChar (BitVec.ofNat 5 (seqSymbol s i)), sym := BitVec.ofNat 5 (seqSymbol s i), idx := BitVec.ofNat 4 i,
    last := i + 1 == p, err := false, code := 0 }

/-- The response to a request (R170). -/
def response (lat lon : F64) (prec : BitVec 32) : List Beat :=
  if precOk prec then
    let s := interleaveSeq (bisect lon lonBracket Config.steps).1 (bisect lat latBracket Config.steps).1
    (List.range prec.toNat).map (seqBeat s prec.toNat)
  else [errorBeat]

/-- A direction sequence held in its register: step `k` at bit `31 - k` (10_state.md R29). -/
def dirWord (d : List Bool) : DirWord := d.foldl (fun w b => w.shiftConcat b) 0

/-- A lane's registers after the 32 steps for a coordinate. -/
def laneAfter (value : F64) (b : Bracket) : Lane :=
  match bisect value b Config.steps with
  | (d, r) => { value := value, lo := r.low, mid := r.mid, hi := r.high, dirs := dirWord d }

/-- ENCODE (R170), as one step: the request is taken and its whole response with it (log 5). In IDLE the beats are those
of R170, and the registers what the request leaves in them; while the block is busy a request is not taken at all
(70_reset_and_hazards.md R236). -/
def execEncode (lat lon : F64) (prec : BitVec 32) (s : State) : Result :=
  if s.st = IDLE then
    if precOk prec then
      .next ((((s.loadData (precField prec) (laneAfter lat latBracket) (laneAfter lon lonBracket)).setK 0).setI 0).takeBeats
        (response lat lon prec))
    else .next (s.takeBeats (response lat lon prec))
  else if s.st.getLsbD 2 then .fault .reservedState
  else .next s

end Sys2Proof.Machine
end

