-- ==== Sys2Proof/Machine/Sequencer.lean ====
section
/-! DEFINITION. The sequencer's micro-operations (43_sequencer.md section 3), RESET (70_reset_and_hazards.md R230) and
RESERVED_ST (60_exceptions.md R205). A meaning is the row's pseudocode whatever the state; the decoder chooses the row
(log 15). -/
namespace Sys2Proof.Machine

/-- The free value of a lane's registers after a RESET edge, from index `n` on (log 3). -/
def freeLane (n : Nat) : Lane :=
  { value := Config.freeWord n, lo := Config.freeWord (n + 1), mid := Config.freeWord (n + 2),
    hi := Config.freeWord (n + 3), dirs := (Config.freeWord (n + 4)).setWidth 32 }

/-- RESET (R230): to IDLE, the counters to 0; `PREC`, both lanes' registers become unspecified. -/
def execReset (s : State) : Result :=
  let n := s.freeIdx
  .next ((((s.setSt IDLE).setK 0).setI 0).dropData ((Config.freeWord n).setWidth 4) (freeLane (n + 1)) (freeLane (n + 6)) 11)

/-- IDLE_WAIT (R173): nothing is written. -/
def execIdleWait (s : State) : Result := .next s

/-- INIT (R174). -/
def execInit (s : State) : Result :=
  .next ((((s.loadData (precField s.pins.reqPrec) (Lane.load s.pins.reqLat latBracket)
    (Lane.load s.pins.reqLon lonBracket)).setK 0).setI 0).setSt BISECT)

/-- REJECT (R175): the entry to InvalidPrecision. -/
def execReject (s : State) : Result := .next s.enterInvalidPrecision

/-- EMIT_HOLD (R177): nothing is written. -/
def execEmitHold (s : State) : Result := .next s

/-- The sequencer's part of taking a character beat (R178). -/
def State.countChar (s : State) : State :=
  if iLast s.i s.prec then (s.setI 0).setSt IDLE else s.setI (s.i + 1)

/-- EMIT_CHAR (R178): the consumer takes character beat `I`. -/
def execEmitChar (s : State) : Result :=
  s.readData (s.withSym fun v => .next ((s.takeBeats [charBeat v s.i s.prec]).countChar))

/-- ERR_HOLD (R179): nothing is written. -/
def execErrHold (s : State) : Result := .next s

/-- ERR_RSP (R180): the return from InvalidPrecision. -/
def execErrRsp (s : State) : Result := .next s.returnFromError

/-- RESERVED_ST (60_exceptions.md R205): a model that decodes this row records a fault. -/
def execReservedSt (_ : State) : Result := .fault .reservedState

end Sys2Proof.Machine
end

