-- ==== Sys2Proof/Machine/Dispatch.lean ====
section
/-! DEFINITION. One arm per constructor of `Instr`. -/
namespace Sys2Proof.Machine

def exec (i : Instr) (s : State) : Host.Outcome State Fault Refusal :=
  match i with
  | .encode lat lon prec => Sys2Proof.Machine.execEncode lat lon prec s
  | .reset => Sys2Proof.Machine.execReset s
  | .idleWait => Sys2Proof.Machine.execIdleWait s
  | .reject => Sys2Proof.Machine.execReject s
  | .init => Sys2Proof.Machine.execInit s
  | .bisectStep => Sys2Proof.Machine.execBisectStep s
  | .emitHold => Sys2Proof.Machine.execEmitHold s
  | .emitChar => Sys2Proof.Machine.execEmitChar s
  | .errHold => Sys2Proof.Machine.execErrHold s
  | .errRsp => Sys2Proof.Machine.execErrRsp s
  | .reservedSt => Sys2Proof.Machine.execReservedSt s
  | .interleave => Sys2Proof.Machine.execInterleave s
  | .packSym => Sys2Proof.Machine.execPackSym s
  | .lutChar => Sys2Proof.Machine.execLutChar s

end Sys2Proof.Machine
end

