-- ==== Sys2Proof/Machine/Fetch.lean ====
section
/-! DEFINITION. What the next step reads: the host's next move, and the word the block decodes at it. The block fetches
no stored program (10_state.md R22, 20_memory.md R76); the host's actions stand in `State.bench` (log 6). -/
namespace Sys2Proof.Machine

/-- The state in which the next operation is performed. A move of the script is used up; with no move left, the request
program drives the pins of one edge (30_encoding.md R88). -/
def present (s : State) : State :=
  match s.bench.script with
  | .edge p :: rest => s.drive p { s.bench with script := rest }
  | .request _ :: rest => s.setBench { s.bench with script := rest }
  | .observe _ :: rest => s.setBench { s.bench with script := rest }
  | [] => s.drive s.bench.pins (s.bench.advance (requestHandshake s.st s.bench.pins))

/-- The word the block decodes: at an edge the control vector (30_encoding.md R82), for a whole command its request
word (R81), for an observation the name of the net (R86). -/
def fetchWord (s : State) : FetchWord :=
  match s.bench.script with
  | .request w :: _ => .req w
  | .observe f :: _ => .comb f
  | .edge _ :: _ => .ctl (controlVector (present s))
  | [] => .ctl (controlVector (present s))

/-! ### Placing a word where it is fetched -/

/-- The move that makes the next step read the word; at an edge, the pins carry the word's `rst`, `rv`, `pok` and `rr`
bits, and the request fields stay those of the present pins but for a precision that gives `pok`. -/
def moveFor (p : Pins) : FetchWord → Move
  | .req w => .request w
  | .comb f => .observe f
  | .ctl cv =>
    .edge { p with
      rst := cv.getLsbD 8, reqValid := cv.getLsbD 4, rspReady := cv.getLsbD 1,
      reqPrec := if precOk p.reqPrec = cv.getLsbD 3 then p.reqPrec else if cv.getLsbD 3 then 1 else 0 }

/-- The registers that show the word's `st`, `kl` and `il` bits. In BISECT and EMIT, where `i_last` is 1, and where a net is
observed, the data registers count as written: the block has them written there only after an INIT (10_state.md R36;
log 6). -/
def State.showing (s : State) : FetchWord → State
  | .req _ => s
  | .comb _ => { s with written := true }
  | .ctl cv =>
    let st := cv.extractLsb' 5 3
    { s with
      st := st,
      k := if kLast s.k = cv.getLsbD 2 then s.k else if cv.getLsbD 2 then 31 else 0,
      i := if iLast s.i s.prec = cv.getLsbD 0 then s.i else 0,
      prec := if iLast s.i s.prec = cv.getLsbD 0 then s.prec else if cv.getLsbD 0 then 1 else 2,
      written := s.written || st == BISECT || st == EMIT || cv.getLsbD 0 }

/-- The state with the word placed as the next one to be read. -/
def State.loadWord (s : State) (word : FetchWord) : State :=
  let t := s.showing word
  t.setBench { t.bench with script := moveFor t.pins word :: t.bench.script }

end Sys2Proof.Machine
end

