-- ==== Sys2Proof/Machine/Step.lean ====
section
/-! DEFINITION. One step: the next word is read, decoded and performed. -/
namespace Sys2Proof.Machine

def step (s : State) : Host.Outcome State Fault Refusal :=
  match decode (fetchWord s) with
  | some i => exec i (present s)
  | none => .refused .undecoded

/-- `s` with the word of a table row placed where `step` reads next (log 6, log 7). A number that is no row's word
changes nothing. -/
def State.withFetchWord (s : State) (nbits w : Nat) : State :=
  match rawFetchWord nbits w with
  | .ok word => s.loadWord word
  | .error _ => s

end Sys2Proof.Machine
end

