-- ==== Sys2Proof/Safety.lean ====
section
/-! DEFINITION. What the claims speak of: the real value of a binary64 datum, single edges and lists of edges, the
invariants of the block, and the beats a request still owes. -/
namespace Sys2Proof.Machine

/-! ### Real values -/

/-- The real value of a finite binary64 datum (40_bisector.md R100: sign, exponent biased by 1023, fraction; subnormal
when the exponent field is 0). For an infinity or a NaN the number means nothing. -/
def f64Value (a : F64) : ℚ :=
  (if f64Sign a then -1 else 1)
    * (if f64Exp a = 0 then (f64Frac a : ℚ) * 2 ^ (-1074 : ℤ)
       else (1 + (f64Frac a : ℚ) * 2 ^ (-52 : ℤ)) * 2 ^ ((f64Exp a : ℤ) - 1023))

/-- `r` is the binary64 datum nearest to the real number `x`, ties to even (40_bisector.md R101, R102). -/
def IsRounded (x : ℚ) (r : F64) : Prop :=
  f64IsFinite r = true ∧
  ∀ c : F64, f64IsFinite c = true →
    |x - f64Value r| ≤ |x - f64Value c| ∧
    (|x - f64Value r| = |x - f64Value c| → f64Value c ≠ f64Value r → r.getLsbD 0 = false)

/-- The least real magnitude that rounds to infinity: halfway from the largest finite datum to 2^1024. -/
def overflowBound : ℚ := 2 ^ 1024 - 2 ^ 970

/-! ### Edges -/

/-- Put a move before the host's other moves. -/
def State.withMove (s : State) (m : Move) : State :=
  s.setBench { s.bench with script := m :: s.bench.script }

/-- One rising edge with the given input ports. -/
def edge (p : Pins) (s : State) : Result := step (s.withMove (.edge p))

/-- One edge for each of the given input ports, stopping at the first fault or refusal. -/
def runEdges : List Pins → State → Result
  | [], s => .next s
  | p :: ps, s =>
    match edge p s with
    | .next t => runEdges ps t
    | .fault r => .fault r
    | .refused r => .refused r

/-- The input ports of a request presented with `rst` low. -/
def requestPins (lat lon : F64) (prec : BitVec 32) (ready : Bool) : Pins :=
  { rst := false, reqValid := true, reqLat := lat, reqLon := lon, reqPrec := prec, rspReady := ready }

/-- The registers of the block, without the host, the record of beats and the model's own fields. -/
structure Registers where
  st : BitVec 3
  k : BitVec 5
  i : BitVec 4
  prec : BitVec 4
  lat : Lane
  lon : Lane
  deriving DecidableEq, Repr

def State.registers (s : State) : Registers :=
  { st := s.st, k := s.k, i := s.i, prec := s.prec, lat := s.lat, lon := s.lon }

/-! ### The sequencer's invariant -/

/-- What holds of the control registers in every state a run reaches: `ST` is a legal state (10_state.md R23); `K` and `I`
are 0 outside their phases (R24, R25); the data registers are written before BISECT and EMIT (R36); an accepted precision
is 1 to 12 (R26); `I` is the index of a character of the response (43_sequencer.md R189). -/
def State.ControlInv (s : State) : Prop :=
  s.st.toNat ≤ 3 ∧
  (s.st ≠ BISECT → s.k = 0) ∧
  (s.st ≠ EMIT → s.i = 0) ∧
  (s.st = BISECT ∨ s.st = EMIT → s.written = true) ∧
  (s.written = true → 1 ≤ s.prec.toNat ∧ s.prec.toNat ≤ 12) ∧
  (s.st = EMIT → s.i.toNat < s.prec.toNat)

/-! ### The bisector's invariant -/

/-- `n` steps of a lane, one an edge. -/
def Lane.steps : Nat → Lane → Lane
  | 0, l => l
  | n + 1, l => Lane.steps n l.step

/-- After `n` steps from the bracket `[lo0, hi0]` the lane's bracket is the one its direction word names: with `D` the word
and `w = (hi0 - lo0) / 2^n`, exactly `LO = lo0 + D*w`, `HI = LO + w` and `MID = LO + w/2`, all finite (40_bisector.md R112,
and R113 at `n` = 32). -/
def Lane.OnGrid (lo0 hi0 : ℚ) (n : Nat) (l : Lane) : Prop :=
  f64IsFinite l.lo = true ∧ f64IsFinite l.mid = true ∧ f64IsFinite l.hi = true ∧
  l.dirs.toNat < 2 ^ n ∧
  f64Value l.lo = lo0 + (l.dirs.toNat : ℚ) * ((hi0 - lo0) / 2 ^ n) ∧
  f64Value l.hi = f64Value l.lo + (hi0 - lo0) / 2 ^ n ∧
  f64Value l.mid = f64Value l.lo + (hi0 - lo0) / 2 ^ n / 2

/-- The number of bisection steps the lanes have made for the request whose data they hold. -/
def State.stepsMade (s : State) : Nat := if s.st = BISECT then s.k.toNat else 32

/-- Whenever the data registers are written, both lanes are on the grid of their own bracket. -/
def State.BracketInv (s : State) : Prop :=
  s.written = true → s.lat.OnGrid (-90) 90 s.stepsMade ∧ s.lon.OnGrid (-180) 180 s.stepsMade

/-- The closed form of the direction word after `n` steps (40_bisector.md R113 at `n` = 32): 0 for a NaN and for a
coordinate below the bracket, all ones for +infinity, else the grid cell of the coordinate, the top cell for one above. -/
def closedForm (v : F64) (lo0 hi0 : ℚ) (n : Nat) : Nat :=
  if f64IsNaN v then 0
  else if f64IsInf v then (if f64Sign v then 0 else 2 ^ n - 1)
  else if f64Value v < lo0 then 0
  else min (2 ^ n - 1) ⌊2 ^ n * (f64Value v - lo0) / (hi0 - lo0)⌋.toNat

/-! ### The beats a request still owes -/

/-- The character beats with indices `i`, `i + 1`, ... of a response of `prec` characters with interleaved word `il`: `n`
of them. -/
def charBeats (il : IlWord) (prec : BitVec 4) : Nat → Nat → List Beat
  | _, 0 => []
  | i, n + 1 =>
    charBeat (BitVec.ofNat 5 (packFrom il i 5)) (BitVec.ofNat 4 i) prec :: charBeats il prec (i + 1) n

/-- The beats still to come for the request in flight, if no reset intervenes. -/
def State.owed (s : State) : List Beat :=
  if s.st = BISECT then
    charBeats (interleave (s.lat.steps (32 - s.k.toNat)).dirs (s.lon.steps (32 - s.k.toNat)).dirs) s.prec 0 s.prec.toNat
  else if s.st = EMIT then charBeats s.ilNet s.prec s.i.toNat (s.prec.toNat - s.i.toNat)
  else if s.st = ERROR then [errorBeat]
  else []

/-- The edges until the block is back in IDLE, when the consumer takes every beat at once (70_reset_and_hazards.md
R240). -/
def State.edgesLeft (s : State) : Nat :=
  if s.st = BISECT then 32 - s.k.toNat + s.prec.toNat
  else if s.st = EMIT then s.prec.toNat - s.i.toNat
  else if s.st = ERROR then 1
  else 0

/-! ### Beats -/

/-- The payload of every beat that can cross the channel: an error beat is the one of 43_sequencer.md R180; a character
beat carries `rsp_code` 0, an index up to 11, and the ROM's code of its symbol (R182; 60_exceptions.md R200). -/
def Beat.wellFormed (b : Beat) : Bool :=
  b == errorBeat || (!b.err && b.code == 0 && b.char == lutChar b.sym && decide (b.idx.toNat ≤ 11))

def State.BeatsInv (s : State) : Prop := ∀ b ∈ s.beats, b.wellFormed = true

end Sys2Proof.Machine
end

