-- ==== Sys2Proof/Certificates/Slice0/Obligations.lean ====
section
/-! DEFINITION. The statements for the provers. Each docstring names the rules of spec/ it formalises. -/

open Sys2Proof Sys2Proof.Machine

/-! ### Encoding -/

/-- Words written out from 30_encoding.md R81 and R84 decode to the rows they stand for; the bits a row leaves open may be
set. -/
def Obligations.SpecWordsDecodeToTheirRows : Prop :=
  decode (.ctl 0b1_010_1_0_1_0_1) = some .reset ∧ decode (.ctl 0b0_000_0_1_1_1_1) = some .idleWait ∧
  decode (.ctl 0b0_000_1_0_1_1_0) = some .reject ∧ decode (.ctl 0b0_000_1_1_0_1_0) = some .init ∧
  decode (.ctl 0b0_001_1_1_1_1_0) = some .bisectStep ∧ decode (.ctl 0b0_010_1_0_0_0_1) = some .emitHold ∧
  decode (.ctl 0b0_010_0_1_0_1_1) = some .emitChar ∧ decode (.ctl 0b0_011_1_1_1_0_1) = some .errHold ∧
  decode (.ctl 0b0_011_0_0_0_1_0) = some .errRsp ∧ decode (.ctl 0b0_110_1_1_1_1_1) = some .reservedSt ∧
  decode (.req 0x4043F3BCD35A8588_405D1A12D77318FC_00000006) =
    some (.encode 0x4043F3BCD35A8588 0x405D1A12D77318FC 6)

/-- R84: a row matches when `(CV & mask) == match`; the ten rows are pairwise disjoint and cover every control vector
(each vector decodes to one row, and to a row exactly when that row's mask and match hit it). -/
def Obligations.ControlMapRowsPartitionTheVectors : Prop :=
  ∀ cv : ControlVector,
    decodeCtl cv ≠ none ∧
    (decodeCtl cv = some .reset ↔ cv &&& 0x100 = 0x100) ∧
    (decodeCtl cv = some .idleWait ↔ cv &&& 0x1F0 = 0x000) ∧
    (decodeCtl cv = some .reject ↔ cv &&& 0x1F8 = 0x010) ∧
    (decodeCtl cv = some .init ↔ cv &&& 0x1F8 = 0x018) ∧
    (decodeCtl cv = some .bisectStep ↔ cv &&& 0x1E0 = 0x020) ∧
    (decodeCtl cv = some .emitHold ↔ cv &&& 0x1E2 = 0x040) ∧
    (decodeCtl cv = some .emitChar ↔ cv &&& 0x1E2 = 0x042) ∧
    (decodeCtl cv = some .errHold ↔ cv &&& 0x1E2 = 0x060) ∧
    (decodeCtl cv = some .errRsp ↔ cv &&& 0x1E2 = 0x062) ∧
    (decodeCtl cv = some .reservedSt ↔ cv &&& 0x180 = 0x080)

/-- Decoding the encoding of any instruction gives it back, with every operand at every value, both as a word and as a
number in the table's numbering (log 7). -/
def Obligations.DecodeOfEncodeIsTheInstruction : Prop :=
  ∀ i : Instr, i.wellFormed = true →
    decode (encode i) = some i ∧
    rawWordOk (encode i).raw.1 (encode i).raw.2 = true ∧
    decodeTableWord (encode i).raw.1 (encode i).raw.2 = some i

/-- R81, R85: every 160-bit word is one ENCODE, its three fields together are the whole word, and encoding that ENCODE
gives the word back. -/
def Obligations.EveryRequestWordIsOneEncode : Prop :=
  ∀ w : RequestWord, ∃ lat lon prec,
    decode (.req w) = some (.encode lat lon prec) ∧
    (∀ n, n < 64 → lat.getLsbD n = w.getLsbD (96 + n)) ∧
    (∀ n, n < 64 → lon.getLsbD n = w.getLsbD (32 + n)) ∧
    (∀ n, n < 32 → prec.getLsbD n = w.getLsbD n) ∧
    encode (.encode lat lon prec) = .req w

/-- R82, R171: a step performs the row its word decodes to, in the state the host's move leaves: at an edge with pins `p`,
the block's registers are untouched and the word is the control vector of that state; a request word and a net's name are
performed with the pins untouched. Where a word comes from is the model's choice (log 6). -/
def Obligations.StepPerformsTheDecodedRow : Prop :=
  (∀ (s : State) (i : Instr), decode (fetchWord s) = some i → step s = exec i (present s)) ∧
  (∀ (s : State) (p : Pins), fetchWord (s.withMove (.edge p)) = .ctl (controlVector { s with pins := p }) ∧
    present (s.withMove (.edge p)) = { s with pins := p }) ∧
  (∀ (s : State) (w : RequestWord), fetchWord (s.withMove (.request w)) = .req w ∧ present (s.withMove (.request w)) = s) ∧
  (∀ (s : State) (f : CombFn), fetchWord (s.withMove (.observe f)) = .comb f ∧ present (s.withMove (.observe f)) = s)

/-! ### Reset -/

/-- R35, R231: after reset `ST` is IDLE, `K` and `I` are 0, no data register counts as written (log 2), and in the first cycle with
`rst` = 0 the outputs are `req_ready` = 1 and `rsp_valid` = `busy` = `rsp_err` = `rsp_code` = 0. -/
def Obligations.ResetStateIsIdleAndReady : Prop :=
  State.reset.st = IDLE ∧ State.reset.k = 0 ∧ State.reset.i = 0 ∧ State.reset.written = false ∧
  State.reset.outputs.reqReady = true ∧ State.reset.outputs.rspValid = false ∧ State.reset.outputs.busy = false ∧
  State.reset.outputs.rspErr = false ∧ State.reset.outputs.rspCode = 0

/-- R230, R208: at an edge with `rst` = 1, whatever the state and the other inputs, `ST` becomes IDLE, `K` and `I` become
0, the data registers count as unwritten, and no beat and no request is taken. -/
def Obligations.ResetEdgeWinsOverEverything : Prop :=
  (∀ cv : ControlVector, cv &&& 0x100 = 0x100 → decodeCtl cv = some .reset) ∧
  (∀ s : State, ∃ t, exec .reset s = .next t ∧ t.st = IDLE ∧ t.k = 0 ∧ t.i = 0 ∧ t.written = false ∧
    t.beats = s.beats ∧ t.pins = s.pins ∧ t.bench = s.bench ∧ t.nets = s.nets) ∧
  (∀ (s : State) (p : Pins), p.rst = true →
    reqReady s.st p.rst = false ∧ rspValid s.st p.rst = false ∧
    ∃ t, edge p s = .next t ∧ t.st = IDLE ∧ t.k = 0 ∧ t.i = 0 ∧ t.written = false ∧ t.beats = s.beats)

/-- R232: a reset edge abandons the request in flight: the beats taken stay, and none of that request is owed any more. -/
def Obligations.ResetEdgeAbortsTheRequest : Prop :=
  ∀ (s : State) (p : Pins), p.rst = true → ∃ t, edge p s = .next t ∧ t.beats = s.beats ∧ t.owed = []

/-! ### The sequencer's rows -/

/-- R173, R177, R179: IDLE_WAIT, EMIT_HOLD and ERR_HOLD are the rows of their control vectors and write nothing. -/
def Obligations.HoldingRowsWriteNothing : Prop :=
  (∀ cv : ControlVector, (cv &&& 0x1F0 = 0x000 → decodeCtl cv = some .idleWait) ∧
    (cv &&& 0x1E2 = 0x040 → decodeCtl cv = some .emitHold) ∧ (cv &&& 0x1E2 = 0x060 → decodeCtl cv = some .errHold)) ∧
  ∀ s : State, exec .idleWait s = .next s ∧ exec .emitHold s = .next s ∧ exec .errHold s = .next s

/-- R174: INIT is the row of its control vectors; it loads the request, the two brackets with midpoint +0.0, clears the direction words and counters and
goes to BISECT; nothing else changes. -/
def Obligations.InitLoadsTheRequest : Prop :=
  (∀ cv : ControlVector, cv &&& 0x1F8 = 0x018 → decodeCtl cv = some .init) ∧
  ∀ s : State, exec .init s = .next { s with
    prec := s.pins.reqPrec.extractLsb' 0 4,
    lat := { value := s.pins.reqLat, lo := 0xC056800000000000, mid := 0x0000000000000000, hi := 0x4056800000000000,
             dirs := 0x00000000 },
    lon := { value := s.pins.reqLon, lo := 0xC066800000000000, mid := 0x0000000000000000, hi := 0x4066800000000000,
             dirs := 0x00000000 },
    written := true, k := 0, i := 0, st := BISECT }

/-- R175: REJECT is the row of its control vectors, goes to ERROR and writes no other register. -/
def Obligations.RejectOnlyEntersError : Prop :=
  (∀ cv : ControlVector, cv &&& 0x1F8 = 0x010 → decodeCtl cv = some .reject) ∧
  ∀ s : State, exec .reject s = .next { s with st := ERROR }

/-- R172, R171: in IDLE, with `rst` = 0 and a request presented, the edge goes to BISECT with `PREC` the precision when the
whole 32-bit two's complement precision is 1 to 12, and otherwise to ERROR with every other register as before; with no
request presented nothing changes. -/
def Obligations.PrecisionCheckDecidesTheHandshake : Prop :=
  ∀ (s : State) (p : Pins), s.st = IDLE → p.rst = false →
    (p.reqValid = true → 1 ≤ p.reqPrec.toInt → p.reqPrec.toInt ≤ 12 →
      ∃ t, edge p s = .next t ∧ t.st = BISECT ∧ (t.prec.toNat : ℤ) = p.reqPrec.toInt ∧ t.lat.value = p.reqLat ∧
        t.lon.value = p.reqLon ∧ t.beats = s.beats) ∧
    (p.reqValid = true → (p.reqPrec.toInt < 1 ∨ 12 < p.reqPrec.toInt) →
      edge p s = .next { s with pins := p, st := ERROR }) ∧
    (p.reqValid = false → edge p s = .next { s with pins := p })

/-- R109, R176: BISECT_STEP is the row of its control vectors; with the data registers written, it makes one step on both lanes and counts it; `dirs` takes the
new bit at its bit 0; nothing else changes. -/
def Obligations.BisectStepStepsBothLanes : Prop :=
  (∀ cv : ControlVector, cv &&& 0x1E0 = 0x020 → decodeCtl cv = some .bisectStep) ∧
  ∀ s : State, s.written = true →
    ∃ t, exec .bisectStep s = .next t ∧
      (∀ (l l' : Lane), (l = s.lat ∧ l' = t.lat) ∨ (l = s.lon ∧ l' = t.lon) →
        l'.value = l.value ∧
        (f64Ge l.value l.mid = true → l'.lo = l.mid ∧ l'.hi = l.hi ∧ l'.dirs.toNat = (2 * l.dirs.toNat + 1) % 2 ^ 32) ∧
        (f64Ge l.value l.mid = false → l'.lo = l.lo ∧ l'.hi = l.mid ∧ l'.dirs.toNat = 2 * l.dirs.toNat % 2 ^ 32) ∧
        l'.mid = f64Div (f64Add l'.lo l'.hi) f64Two) ∧
      (s.k.toNat = 31 → t.k = 0 ∧ t.i = 0 ∧ t.st = EMIT) ∧
      (s.k.toNat ≠ 31 → t.k.toNat = s.k.toNat + 1 ∧ t.i = s.i ∧ t.st = s.st) ∧
      t.prec = s.prec ∧ t.written = s.written ∧ t.pins = s.pins ∧ t.bench = s.bench ∧ t.beats = s.beats ∧
      t.nets = s.nets ∧ t.freeIdx = s.freeIdx

/-- R178: EMIT_CHAR is the row of its control vectors; with the data registers written and `I` at most 11, it hands over the beat whose symbol is
`IL[63-5I : 59-5I]`, and goes to the next character, or after the last one to IDLE with `I` = 0; nothing else changes. -/
def Obligations.EmitCharHandsOverTheBeat : Prop :=
  (∀ cv : ControlVector, cv &&& 0x1E2 = 0x042 → decodeCtl cv = some .emitChar) ∧
  ∀ s : State, s.written = true → s.i.toNat ≤ 11 →
    let v : Symbol := (interleave s.lat.dirs s.lon.dirs).extractLsb' (59 - 5 * s.i.toNat) 5
    let last : Bool := decide (s.i.toNat + 1 = s.prec.toNat)
    exec .emitChar s = .next { s with
      beats := s.beats ++ [{ char := lutChar v, sym := v, idx := s.i, last := last, err := false, code := 0 }],
      i := if last then 0 else s.i + 1,
      st := if last then IDLE else s.st }

/-- R180: ERR_RSP is the row of its control vectors, hands over the error beat and returns to IDLE; nothing else changes. -/
def Obligations.ErrRspHandsOverTheErrorBeat : Prop :=
  (∀ cv : ControlVector, cv &&& 0x1E2 = 0x062 → decodeCtl cv = some .errRsp) ∧
  ∀ s : State, exec .errRsp s = .next { s with
    beats := s.beats ++ [{ char := 0x00, sym := 0, idx := 0, last := true, err := true, code := 1 }], st := IDLE }

/-- R203, R204: a rejected request moves the block to ERROR and writes no other register; no request is taken there; the
edge that takes the error beat returns to IDLE, and that one beat is the whole response. -/
def Obligations.InvalidPrecisionIsOneErrorBeat : Prop :=
  ∀ (s : State) (p q : Pins), s.st = IDLE → p.rst = false → p.reqValid = true →
    (p.reqPrec.toInt < 1 ∨ 12 < p.reqPrec.toInt) → q.rst = false →
    ∃ t, edge p s = .next t ∧ t = { s with pins := p, st := ERROR } ∧
      reqReady t.st q.rst = false ∧
      (q.rspReady = false → edge q t = .next { s with pins := q, st := ERROR }) ∧
      (q.rspReady = true → edge q t = .next { s with
        pins := q, st := IDLE,
        beats := s.beats ++ [{ char := 0x00, sym := 0, idx := 0, last := true, err := true, code := 1 }] })

/-- R205: no row writes `ST` with a reserved value; the row RESERVED_ST stops with the fault `ReservedState`; in a reserved
state every edge with `rst` = 0 stops so, and a reset edge leads to IDLE. -/
def Obligations.ReservedStateFaultsUntilReset : Prop :=
  (∀ (i : Instr) (s t : State), exec i s = .next t → s.st.getLsbD 2 = false → t.st.getLsbD 2 = false) ∧
  (∀ cv : ControlVector, cv.getLsbD 8 = false → cv.getLsbD 7 = true → decodeCtl cv = some .reservedSt) ∧
  (∀ s : State, exec .reservedSt s = .fault .reservedState) ∧
  (∀ (s : State) (p : Pins), s.st.getLsbD 2 = true →
    (p.rst = false → edge p s = .fault .reservedState) ∧
    (p.rst = true → ∃ t, edge p s = .next t ∧ t.st = IDLE))

/-- R36, R206, R151: where the rows that read data registers stop: all of them when the data registers are unwritten (log 2),
whatever `I` is (log 18); and with them written, the rows that ask for a symbol when `I` is above 11. -/
def Obligations.ModelFaultsStandWhereTheRulesPutThem : Prop :=
  ∀ s : State,
    (s.written = false → exec .bisectStep s = .fault .unwrittenRead ∧ exec .emitChar s = .fault .unwrittenRead ∧
      exec .interleave s = .fault .unwrittenRead ∧ exec .packSym s = .fault .unwrittenRead ∧
      exec .lutChar s = .fault .unwrittenRead) ∧
    (s.written = true → 11 < s.i.toNat → exec .emitChar s = .fault .packPastEnd ∧
      exec .packSym s = .fault .packPastEnd ∧ exec .lutChar s = .fault .packPastEnd)

/-! ### Outputs and channels -/

/-- R182, R238: the output equations. A payload field has a value only in a cycle with `rsp_valid` = 1: in EMIT with the data
registers written and `I` at most 11 the character beat's, in ERROR the error beat's. That the equations hold for a reserved
`ST` as they read is the model's reading (log 16), and so is that the payload has no value in EMIT and ERROR with `rst` = 1
(log 11). -/
def Obligations.OutputEquationsHold : Prop :=
  ∀ s : State,
    (s.outputs.reqReady = true ↔ s.st = IDLE ∧ s.pins.rst = false) ∧
    (s.outputs.rspValid = true ↔ (s.st = EMIT ∨ s.st = ERROR) ∧ s.pins.rst = false) ∧
    (s.outputs.busy = true ↔ s.st ≠ IDLE) ∧
    (s.outputs.rspErr = true ↔ s.st = ERROR) ∧
    s.outputs.rspCode = (if s.st = ERROR then 1 else 0) ∧
    (s.st = EMIT → s.pins.rst = false → s.written = true → s.i.toNat ≤ 11 →
      ∃ v, packSym (interleave s.lat.dirs s.lon.dirs) s.i = some v ∧ s.outputs.rspSym = some v ∧
        s.outputs.rspChar = some (lutChar v) ∧ s.outputs.rspIdx = some s.i ∧
        s.outputs.rspLast = some (decide (s.i.toNat + 1 = s.prec.toNat))) ∧
    (s.st = ERROR → s.pins.rst = false → s.outputs.rspSym = some 0 ∧ s.outputs.rspChar = some 0x00 ∧ s.outputs.rspIdx = some 0 ∧
      s.outputs.rspLast = some true) ∧
    (s.outputs.rspValid = false → s.outputs.rspSym = none ∧ s.outputs.rspChar = none ∧ s.outputs.rspIdx = none ∧
      s.outputs.rspLast = none)

/-- R68, R211: however many edges the consumer holds a presented beat, nothing of the block changes: the registers and the
beats taken stay as they were, and so does the payload from any cycle with `rsp_valid` = 1 on. -/
def Obligations.HeldBeatStaysPresented : Prop :=
  ∀ (ps : List Pins) (s : State), (s.st = EMIT ∨ s.st = ERROR) → (∀ p ∈ ps, p.rst = false ∧ p.rspReady = false) →
    ∃ t, runEdges ps s = .next t ∧ t = { s with pins := t.pins } ∧
      (s.outputs.rspValid = true → t.outputs.rspValid = true ∧ t.payload = s.payload)

/-- R237: two edges that are no request handshakes and differ only in the request ports leave the same registers and the
same beats. -/
def Obligations.RequestPortsAreReadOnlyAtTheHandshake : Prop :=
  ∀ (s t : State) (p q : Pins), requestHandshake s.st p = false → requestHandshake s.st q = false →
    p.rst = q.rst → p.rspReady = q.rspReady → edge p s = .next t →
    ∃ u, edge q s = .next u ∧ u.registers = t.registers ∧ u.written = t.written ∧ u.beats = t.beats

/-- R236, R88: a request program moves on by one edge a step, and its first request is taken exactly at an edge in IDLE
that is no reset edge. How a program is held is the model's choice (log 10). -/
def Obligations.ProgramRequestIsTakenOnlyInIdle : Prop :=
  ∀ s t : State, s.bench.script = [] → step s = .next t →
    t.bench.script = [] ∧ t.bench.edge = s.bench.edge + 1 ∧
    (s.st = IDLE → s.bench.edge ∉ s.bench.resets → t.bench.requests = s.bench.requests.tail) ∧
    (s.st ≠ IDLE ∨ s.bench.edge ∈ s.bench.resets → t.bench.requests = s.bench.requests)

/-! ### Frames over every row -/

/-- R21, R27, R28: a register is written only by the rows whose rules name it, and no row touches the ports or loses a
beat. ENCODE, the whole command, counts as the rows it consists of (log 5); the record of beats is the model's (log 9). -/
def Obligations.OnlyTheNamingRowsWriteARegister : Prop :=
  ∀ (i : Instr) (s t : State), exec i s = .next t →
    t.pins = s.pins ∧ t.bench = s.bench ∧ s.beats <+: t.beats ∧
    (i ≠ .reset → i ≠ .init → (∀ a b c, i ≠ .encode a b c) →
      t.prec = s.prec ∧ t.lat.value = s.lat.value ∧ t.lon.value = s.lon.value ∧ t.written = s.written) ∧
    (i ≠ .reset → i ≠ .init → (∀ a b c, i ≠ .encode a b c) → i ≠ .bisectStep →
      t.lat = s.lat ∧ t.lon = s.lon ∧ t.k = s.k) ∧
    (i ≠ .reset → i ≠ .init → (∀ a b c, i ≠ .encode a b c) → i ≠ .bisectStep → i ≠ .emitChar → t.i = s.i) ∧
    (i ≠ .reset → i ≠ .init → i ≠ .reject → i ≠ .bisectStep → i ≠ .emitChar → i ≠ .errRsp → t.st = s.st) ∧
    (i ≠ .emitChar → i ≠ .errRsp → (∀ a b c, i ≠ .encode a b c) → t.beats = s.beats) ∧
    (i ≠ .interleave → i ≠ .packSym → i ≠ .lutChar → t.nets = s.nets)

/-! ### Floating point -/

/-- R104: the comparison's table, row by row, with real values in the last row. R105: a subnormal has its exact value. -/
def Obligations.ComparisonFollowsItsTable : Prop :=
  ∀ a b : F64,
    (f64IsNaN a = true → f64Ge a b = false) ∧
    (f64IsNaN b = true → f64Ge a b = false) ∧
    (f64IsZero a = true → f64IsZero b = true → f64Ge a b = true) ∧
    (f64IsInf a = true → f64Sign a = false → f64IsNaN b = false → f64Ge a b = true) ∧
    (f64IsInf a = true → f64Sign a = true → f64IsInf b = true → f64Sign b = true → f64Ge a b = true) ∧
    (f64IsInf a = true → f64Sign a = true → f64IsNaN b = false → ¬(f64IsInf b = true ∧ f64Sign b = true) →
      f64Ge a b = false) ∧
    (f64IsFinite a = true → f64IsInf b = true → f64Sign b = false → f64Ge a b = false) ∧
    (f64IsFinite a = true → f64IsInf b = true → f64Sign b = true → f64Ge a b = true) ∧
    (f64IsFinite a = true → f64IsFinite b = true → (f64Ge a b = true ↔ f64Value b ≤ f64Value a))

/-- R101: the sum of finite data is the datum nearest to the exact sum, ties to even, whenever that is below the overflow
bound. IEEE 754's addition is taken from general knowledge (log 14). -/
def Obligations.AdditionRoundsToNearestEven : Prop :=
  ∀ a b : F64, f64IsFinite a = true → f64IsFinite b = true → |f64Value a + f64Value b| < overflowBound →
    IsRounded (f64Value a + f64Value b) (f64Add a b)

/-- R102: the quotient of finite data, the divisor not zero, is the datum nearest to the exact quotient, ties to even,
whenever that is below the overflow bound. IEEE 754's division is taken from general knowledge (log 14). -/
def Obligations.DivisionRoundsToNearestEven : Prop :=
  ∀ a b : F64, f64IsFinite a = true → f64IsFinite b = true → f64Value b ≠ 0 →
    |f64Value a / f64Value b| < overflowBound → IsRounded (f64Value a / f64Value b) (f64Div a b)

/-! ### The bisector -/

/-- R117: a coordinate equal to the midpoint takes the upper half: bit 1, and the low end moves to the midpoint. -/
def Obligations.TieTakesTheUpperHalf : Prop :=
  ∀ l : Lane, f64IsFinite l.value = true → f64IsFinite l.mid = true → f64Value l.value = f64Value l.mid →
    l.step.dirs.getLsbD 0 = true ∧ l.step.lo = l.mid ∧ l.step.hi = l.hi

/-- R118: the lanes do not read each other: the next registers of a lane depend on that lane alone. -/
def Obligations.LanesDoNotReadEachOther : Prop :=
  ∀ s u t v : State, exec .bisectStep s = .next t → exec .bisectStep u = .next v →
    (s.lat = u.lat → t.lat = v.lat) ∧ (s.lon = u.lon → t.lon = v.lon)

/-- R115: a NaN coordinate gives a direction word of all zeros, +infinity all ones and -infinity all zeros, in both
lanes. -/
def Obligations.NonFiniteCoordinatesSaturate : Prop :=
  ∀ v : F64, ∀ b : Bracket, (b = latBracket ∨ b = lonBracket) →
    (f64IsNaN v = true → ((Lane.load v b).steps 32).dirs = 0x00000000) ∧
    (f64IsInf v = true → f64Sign v = false → ((Lane.load v b).steps 32).dirs = 0xFFFFFFFF) ∧
    (f64IsInf v = true → f64Sign v = true → ((Lane.load v b).steps 32).dirs = 0x00000000)

/-- R114: an out-of-range coordinate runs like any other: at or above the upper bound the direction word is all ones, below
the lower bound all zeros. -/
def Obligations.OutOfRangeCoordinatesSaturate : Prop :=
  ∀ v : F64, f64IsFinite v = true →
    (90 ≤ f64Value v → ((Lane.load v latBracket).steps 32).dirs = 0xFFFFFFFF) ∧
    (f64Value v < -90 → ((Lane.load v latBracket).steps 32).dirs = 0x00000000) ∧
    (180 ≤ f64Value v → ((Lane.load v lonBracket).steps 32).dirs = 0xFFFFFFFF) ∧
    (f64Value v < -180 → ((Lane.load v lonBracket).steps 32).dirs = 0x00000000)

/-- R116: -0.0 gives the same direction words as +0.0. -/
def Obligations.SignedZerosGiveTheSameBits : Prop :=
  ((Lane.load 0x8000000000000000 latBracket).steps 32).dirs = ((Lane.load 0x0000000000000000 latBracket).steps 32).dirs ∧
  ((Lane.load 0x8000000000000000 lonBracket).steps 32).dirs = ((Lane.load 0x0000000000000000 lonBracket).steps 32).dirs

/-- R113: in exact real arithmetic, the direction word after the 32 steps has the closed form, and the lane's registers
hold exactly `LO = lo0 + D*w`, `HI = LO + w`, `MID = LO + w/2`. -/
def Obligations.DirectionWordHasItsClosedForm : Prop :=
  ∀ v : F64,
    ((Lane.load v latBracket).steps 32).dirs.toNat = closedForm v (-90) 90 32 ∧
    ((Lane.load v latBracket).steps 32).OnGrid (-90) 90 32 ∧
    ((Lane.load v lonBracket).steps 32).dirs.toNat = closedForm v (-180) 180 32 ∧
    ((Lane.load v lonBracket).steps 32).OnGrid (-180) 180 32

/-- R111: after every step from a state that keeps the sequencer's and the bisector's invariants, an INIT among them, if the
data registers are written then `low < mid < high` holds in both lanes, and `mid` is the exact real midpoint. -/
def Obligations.BracketsStayOrderedAroundTheirMidpoint : Prop :=
  ∀ s t : State, s.ControlInv → s.BracketInv → step s = .next t → t.written = true →
    ∀ l, (l = t.lat ∨ l = t.lon) →
      f64Value l.lo < f64Value l.mid ∧ f64Value l.mid < f64Value l.hi ∧
        f64Value l.mid = (f64Value l.lo + f64Value l.hi) / 2

/-! ### The interleaver and the packer -/

/-- R140: for every bit `b`, `IL[b] = LOND[b/2]` when `b` is odd and `IL[b] = LATD[b/2]` when `b` is even; the function is a
bijection between pairs of 32-bit words and 64-bit words. -/
def Obligations.InterleaveAlternatesTheWords : Prop :=
  (∀ (latd lond : DirWord) (b : Nat), b < 64 →
    (interleave latd lond).getLsbD b = if b % 2 = 1 then lond.getLsbD (b / 2) else latd.getLsbD (b / 2)) ∧
  (∀ a b c d : DirWord, interleave a b = interleave c d → a = c ∧ b = d) ∧
  (∀ w : IlWord, ∃ a b, interleave a b = w)

/-- R142: the source's example, in register form. -/
def Obligations.InterleaveExampleHolds : Prop :=
  interleave 0xAAAAAAAA 0x55555555 = 0x6666666666666666

/-- R151: for `i` in 0..11 the symbol is the slice `IL[63-5i : 59-5i]`; for `i` above 11 there is none. -/
def Obligations.PackSymIsASliceOfTheWord : Prop :=
  ∀ (il : IlWord) (i : BitVec 4),
    (i.toNat ≤ 11 → packSym il i = some (il.extractLsb' (59 - 5 * i.toNat) 5)) ∧
    (11 < i.toNat → packSym il i = none)

/-- R150, R153: the ROM holds the 32 characters in order, and none of them is `a`, `i`, `l`, `o` or an upper-case letter. -/
def Obligations.LutCharReadsTheAlphabet : Prop :=
  ∀ v : Symbol, (lutChar v).toNat = ("0123456789bcdefghjkmnpqrstuvwxyz".toList.getD v.toNat ' ').toNat ∧
    (lutChar v).toNat ≠ 'a'.toNat ∧ (lutChar v).toNat ≠ 'i'.toNat ∧ (lutChar v).toNat ≠ 'l'.toNat ∧
    (lutChar v).toNat ≠ 'o'.toNat ∧ ¬('A'.toNat ≤ (lutChar v).toNat ∧ (lutChar v).toNat ≤ 'Z'.toNat)

/-- With the data registers written, the COMB rows compute their nets from the registers and write no register of the block:
INTERLEAVE in every such state, PACK_SYM and LUT_CHAR whenever `I` is at most 11, and above that both stop. With them
unwritten all three stop. Both that stop, which follows R36, R206 and the ruling E1 where R140 by itself names no exception, and
that the value is put in `nets`, are the model's choice (log 8). -/
def Obligations.CombRowsObserveTheirNets : Prop :=
  ∀ s : State,
    let il := interleave s.lat.dirs s.lon.dirs
    let v : Symbol := il.extractLsb' (59 - 5 * s.i.toNat) 5
    (s.written = true → exec .interleave s = .next { s with nets := { s.nets with il := il } }) ∧
    (s.written = true → s.i.toNat ≤ 11 → exec .packSym s = .next { s with nets := { s.nets with sym := v } } ∧
      exec .lutChar s = .next { s with nets := { s.nets with char := lutChar v } }) ∧
    (s.written = true → 11 < s.i.toNat → exec .packSym s = .fault .packPastEnd ∧ exec .lutChar s = .fault .packPastEnd) ∧
    (s.written = false → exec .interleave s = .fault .unwrittenRead ∧ exec .packSym s = .fault .unwrittenRead ∧
      exec .lutChar s = .fault .unwrittenRead)

/-- R154: no symbol depends on the finest two bits of either direction word. -/
def Obligations.FinestBitsAreNeverRead : Prop :=
  ∀ (a b c d : DirWord) (i : BitVec 4), i.toNat ≤ 11 →
    (∀ n, 2 ≤ n → n < 32 → a.getLsbD n = c.getLsbD n) → (∀ n, 2 ≤ n → n < 32 → b.getLsbD n = d.getLsbD n) →
    packSym (interleave a b) i = packSym (interleave c d) i

/-! ### Whole requests -/

/-- R170: ENCODE in IDLE. For a precision 1 to 12 it answers a next state whose new beats are those of the rule, with
`dlat` and `dlon` the two runs of BISECT, and whose registers are what the request leaves; for any other precision the one
error beat is new and nothing else changes. That the whole command is one step of the model is the model's choice
(log 5). -/
def Obligations.EncodeAnswersItsResponse : Prop :=
  ∀ (lat lon : F64) (prec : BitVec 32) (s : State), s.st = IDLE →
    let rlat := bisect lat ⟨0xC056800000000000, 0, 0x4056800000000000⟩ 32
    let rlon := bisect lon ⟨0xC066800000000000, 0, 0x4066800000000000⟩ 32
    let sq := fun j => (if j % 2 = 0 then rlon.1.getD (j / 2) false else rlat.1.getD (j / 2) false).toNat
    let v := fun i => sq (5*i) * 16 + sq (5*i+1) * 8 + sq (5*i+2) * 4 + sq (5*i+3) * 2 + sq (5*i+4)
    (1 ≤ prec.toInt → prec.toInt ≤ 12 → ∃ t, exec (.encode lat lon prec) s = .next t ∧
      t.beats = s.beats ++ (List.range prec.toNat).map (fun i =>
        { char := lutChar (BitVec.ofNat 5 (v i)), sym := BitVec.ofNat 5 (v i), idx := BitVec.ofNat 4 i,
          last := decide (i + 1 = prec.toNat), err := false, code := 0 }) ∧
      t.st = IDLE ∧ t.k = 0 ∧ t.i = 0 ∧ (t.prec.toNat : ℤ) = prec.toInt ∧ t.written = true ∧
      t.lat.value = lat ∧ t.lat.lo = rlat.2.low ∧ t.lat.mid = rlat.2.mid ∧ t.lat.hi = rlat.2.high ∧
      (∀ n, n < 32 → t.lat.dirs.getLsbD (31 - n) = rlat.1.getD n false) ∧
      t.lon.value = lon ∧ t.lon.lo = rlon.2.low ∧ t.lon.mid = rlon.2.mid ∧ t.lon.hi = rlon.2.high ∧
      (∀ n, n < 32 → t.lon.dirs.getLsbD (31 - n) = rlon.1.getD n false) ∧
      t.pins = s.pins ∧ t.bench = s.bench ∧ t.nets = s.nets ∧ t.freeIdx = s.freeIdx) ∧
    (prec.toInt < 1 ∨ 12 < prec.toInt → exec (.encode lat lon prec) s = .next { s with
      beats := s.beats ++ [{ char := 0x00, sym := 0, idx := 0, last := true, err := true, code := 1 }] })

/-- R236: an ENCODE while the block is busy is not taken at all, and in a reserved state it stops (R205). That the whole
command is one step is the model's choice (log 5). -/
def Obligations.EncodeIsNotTakenWhileBusy : Prop :=
  ∀ (lat lon : F64) (prec : BitVec 32) (s : State),
    (s.st = BISECT ∨ s.st = EMIT ∨ s.st = ERROR → exec (.encode lat lon prec) s = .next s) ∧
    (s.st.getLsbD 2 = true → exec (.encode lat lon prec) s = .fault .reservedState)

/-- R170, R240: the micro-operations implement the command. From IDLE, the edge that presents the request and then edges
with the consumer ready, 32 + `p` of them for a precision `p` and one for an invalid precision, lead to the state ENCODE
answers, the pins apart. Edges are counted on the reference schedule, and ENCODE is one step by the model's choice (log 5). -/
def Obligations.EdgesImplementTheEncodeCommand : Prop :=
  ∀ (s : State) (lat lon : F64) (prec : BitVec 32) (ready : Bool) (ps : List Pins), s.st = IDLE →
    ps.length = (if 1 ≤ prec.toInt ∧ prec.toInt ≤ 12 then 32 + prec.toNat else 1) →
    (∀ p ∈ ps, p.rst = false ∧ p.rspReady = true) →
    ∃ t u, runEdges (requestPins lat lon prec ready :: ps) s = .next t ∧ exec (.encode lat lon prec) s = .next u ∧
      t = { u with pins := t.pins }

/-- R37, R184: at a request handshake the block comes to owe exactly the response to that request, whatever the state
before. -/
def Obligations.HandshakeOwesTheResponse : Prop :=
  ∀ (s : State) (p : Pins), s.st = IDLE → p.rst = false → p.reqValid = true →
    ∃ t, edge p s = .next t ∧ t.beats = s.beats ∧ t.owed = response p.reqLat p.reqLon p.reqPrec

/-- R72, R183, R184: at every other edge without a reset, whatever the consumer does, the beats taken followed by the beats
owed stay the same list: none is lost, repeated, reordered or changed. -/
def Obligations.EdgesNeverLoseOrRepeatABeat : Prop :=
  ∀ (s t : State) (p : Pins), s.ControlInv → p.rst = false → ¬(s.st = IDLE ∧ p.reqValid = true) →
    edge p s = .next t → t.beats ++ t.owed = s.beats ++ s.owed

/-- R211, R240: with the consumer ready and no reset, a request ends after exactly `edgesLeft` edges, the beats owed all
taken. -/
def Obligations.RequestEndsOnTheReferenceSchedule : Prop :=
  ∀ (s : State) (ps : List Pins), s.ControlInv → ps.length = s.edgesLeft →
    (∀ p ∈ ps, p.rst = false ∧ p.rspReady = true) →
    (∃ t, runEdges ps s = .next t ∧ t.st = IDLE ∧ t.beats = s.beats ++ s.owed) ∧
    (∀ n t, n < s.edgesLeft → runEdges (ps.take n) s = .next t → t.st ≠ IDLE)

/-- R185, R183: the response to a precision `p` of 1 to 12 has exactly `p` beats, with `rsp_idx` = 0, 1, ..., `p`-1 in that
order, `rsp_last` on the last one only, and `rsp_err` on none; any other precision has one beat, an error. -/
def Obligations.ResponseHasOneBeatPerCharacter : Prop :=
  ∀ (lat lon : F64) (prec : BitVec 32),
    (1 ≤ prec.toInt → prec.toInt ≤ 12 →
      ((response lat lon prec).length : ℤ) = prec.toInt ∧
      ∀ (n : ℕ) (b : Beat), (response lat lon prec)[n]? = some b →
        b.idx.toNat = n ∧ b.err = false ∧ b.code = 0 ∧ (b.last = true ↔ (n : ℤ) + 1 = prec.toInt)) ∧
    (prec.toInt < 1 ∨ 12 < prec.toInt → response lat lon prec = [errorBeat])

/-- R186: every `rsp_char` of every character beat belongs to the alphabet. -/
def Obligations.ResponseStaysInTheAlphabet : Prop :=
  ∀ (lat lon : F64) (prec : BitVec 32), ∀ b ∈ response lat lon prec, b.err = false →
    b.char.toNat ∈ "0123456789bcdefghjkmnpqrstuvwxyz".toList.map Char.toNat

/-- R187: for 1 <= p <= 11, the characters of a request are the first `p` characters of the same request with
precision `p` + 1. -/
def Obligations.ShorterCodeIsAPrefix : Prop :=
  ∀ (lat lon : F64) (prec : BitVec 32), 1 ≤ prec.toInt → prec.toInt ≤ 11 →
    (response lat lon prec).map Beat.char = ((response lat lon (prec + 1)).map Beat.char).take prec.toNat

/-! ### Invariants -/

/-- R36, R189, R206: from a state that keeps the sequencer's invariant, every edge and every whole command, whatever the host
does, answers a next state that keeps it, and so does every observation of a net once the data registers are written; an
observation before that is the one step that faults, and observing a net is no action of the host of R217 (log 8). -/
def Obligations.StepKeepsTheControlInvariant : Prop :=
  ∀ s : State, s.ControlInv →
    (∃ t, step s = .next t ∧ t.ControlInv) ∨
    (s.written = false ∧ (∃ f rest, s.bench.script = .observe f :: rest) ∧ step s = .fault .unwrittenRead)

/-- R112: every step keeps the bisector's invariant: each end and midpoint is finite and exactly the grid point its
direction word names, for every coordinate. -/
def Obligations.StepKeepsTheBracketInvariant : Prop :=
  ∀ s t : State, s.ControlInv → s.BracketInv → step s = .next t → t.BracketInv

/-- R200, R182: every step keeps the payload rule of the beats taken: an error beat is the fixed one, a character beat has
code 0, an index up to 11 and its symbol's character; so `rsp_code` 2 and 3 are never driven. The record of
beats is the model's (log 9). -/
def Obligations.StepKeepsBeatsWellFormed : Prop :=
  ∀ s t : State, s.BeatsInv → step s = .next t → t.BeatsInv

/-- The state after reset keeps the three invariants. -/
def Obligations.ResetStateKeepsTheInvariants : Prop :=
  State.reset.ControlInv ∧ State.reset.BracketInv ∧ State.reset.BeatsInv
end

