-- ==== Sys2Proof/Laws/Float.lean ====
section
/-! SUPPORT. The binary64 arithmetic: what its operations do, in real values. -/
namespace Sys2Proof.Machine

/-! ### Fields of an assembled datum -/

theorem f64Sign_withSign (neg : Bool) (bits : Nat) : f64Sign (f64WithSign neg bits) = neg := by
  rw [f64Sign, f64WithSign, BitVec.getLsbD_append, if_neg (by norm_num)]
  simp

theorem toNat_withSign (neg : Bool) (bits : Nat) (h : bits < 2 ^ 63) :
    (f64WithSign neg bits).toNat = neg.toNat * 2 ^ 63 + bits := by
  have hb : bits % 2 ^ 63 = bits := Nat.mod_eq_of_lt h
  simp only [f64WithSign, BitVec.toNat_append, BitVec.toNat_ofBool, BitVec.toNat_ofNat, hb]
  rw [Nat.shiftLeft_eq, ← Nat.shiftLeft_eq, ← Nat.shiftLeft_add_eq_or_of_lt h, Nat.shiftLeft_eq]

theorem f64Exp_withSign (neg : Bool) (bits : Nat) (h : bits < 2 ^ 63) :
    f64Exp (f64WithSign neg bits) = bits / 2 ^ 52 := by
  have hn : neg.toNat ≤ 1 := Bool.toNat_le neg
  simp only [f64Exp, BitVec.extractLsb'_toNat, Nat.shiftRight_eq_div_pow, toNat_withSign neg bits h]
  omega

theorem f64Frac_withSign (neg : Bool) (bits : Nat) (h : bits < 2 ^ 63) :
    f64Frac (f64WithSign neg bits) = bits % 2 ^ 52 := by
  simp only [f64Frac, BitVec.extractLsb'_toNat, Nat.shiftRight_zero, toNat_withSign neg bits h]
  omega

theorem f64Exp_lt (a : F64) : f64Exp a < 2 ^ 11 := (a.extractLsb' 52 11).isLt

theorem f64Frac_lt (a : F64) : f64Frac a < 2 ^ 52 := (a.extractLsb' 0 52).isLt

/-! ### Values -/

theorem f64Value_eq_mag (a : F64) :
    f64Value a = (if f64Sign a then -1 else 1) * ((f64Mag a : ℚ) / 2 ^ 1074) := by
  unfold f64Value f64Mag
  congr 1
  by_cases h : f64Exp a = 0
  · rw [if_pos h, if_pos h, zpow_neg, div_eq_mul_inv]
    rfl
  · rw [if_neg h, if_neg h, Nat.shiftLeft_eq]
    obtain ⟨e, he⟩ := Nat.exists_eq_add_of_le' (Nat.pos_of_ne_zero h)
    have h2 : (2 : ℚ) ≠ 0 := two_ne_zero
    rw [he, Nat.add_sub_cancel, show (((e + 1 : ℕ) : ℤ) - 1023) = (e : ℤ) + 52 + (-1074) by push_cast; ring,
      zpow_add₀ h2, zpow_add₀ h2, zpow_natCast, zpow_neg, zpow_neg]
    rw [show (2 : ℚ) ^ (1074 : ℤ) = 2 ^ 1074 from rfl, div_eq_mul_inv]
    generalize ((2 : ℚ) ^ 1074)⁻¹ = u
    push_cast
    field_simp

theorem f64Value_eq_scaled (a : F64) : f64Value a = (f64Scaled a : ℚ) / 2 ^ 1074 := by
  rw [f64Value_eq_mag, f64Scaled]
  generalize (2 : ℚ) ^ 1074 = u
  by_cases h : f64Sign a
  · simp only [h, if_true, Int.cast_neg, Int.cast_natCast]
    ring
  · simp [h]

theorem f64Scaled_cast (a : F64) : (f64Scaled a : ℚ) = f64Value a * 2 ^ 1074 := by
  rw [f64Value_eq_scaled, div_mul_cancel₀]
  positivity

theorem f64Value_le_iff (a b : F64) : f64Value a ≤ f64Value b ↔ f64Scaled a ≤ f64Scaled b := by
  rw [f64Value_eq_scaled, f64Value_eq_scaled, div_le_div_iff_of_pos_right (by positivity)]
  exact_mod_cast Iff.rfl

/-! ### Rounding -/

/-- The encoding `shift * 2^52 + m` stands for the magnitude `m * 2^shift`, a carry to 2^53 included. -/
theorem f64Mag_packed (neg : Bool) (shift m : Nat) (hn : shift = 0 ∨ 2 ^ 52 ≤ m) (hm : m ≤ 2 ^ 53)
    (hb : (shift <<< 52) + m < 0x7FF <<< 52) :
    f64IsFinite (f64WithSign neg ((shift <<< 52) + m)) = true ∧
      f64Mag (f64WithSign neg ((shift <<< 52) + m)) = m * 2 ^ shift := by
  rw [Nat.shiftLeft_eq] at hb ⊢
  rw [Nat.shiftLeft_eq] at hb
  have h63 : shift * 2 ^ 52 + m < 2 ^ 63 := by omega
  have he := f64Exp_withSign neg _ h63
  have hf := f64Frac_withSign neg _ h63
  refine ⟨by simp only [f64IsFinite, he, bne_iff_ne]; omega, ?_⟩
  unfold f64Mag
  rw [he, hf]
  rcases Nat.lt_or_ge m (2 ^ 52) with h1 | h1
  · obtain rfl : shift = 0 := by omega
    rw [if_pos (by omega)]
    simp only [Nat.pow_zero, Nat.mul_one]
    omega
  · rw [if_neg (by omega), Nat.shiftLeft_eq]
    rcases Nat.lt_or_ge m (2 ^ 53) with h2 | h2
    · rw [show (shift * 2 ^ 52 + m) / 2 ^ 52 - 1 = shift by omega,
        show 2 ^ 52 + (shift * 2 ^ 52 + m) % 2 ^ 52 = m by omega]
    · rw [show (shift * 2 ^ 52 + m) / 2 ^ 52 - 1 = shift + 1 by omega,
        show 2 ^ 52 + (shift * 2 ^ 52 + m) % 2 ^ 52 = 2 ^ 52 by omega, show m = 2 ^ 53 by omega]
      ring

/-- A quotient that binary64 can hold is not changed by rounding. -/
theorem f64Round_exact (neg : Bool) (num den m e : Nat) (hden : 0 < den) (hm : m < 2 ^ 53) (he : e ≤ 2045)
    (hnum : num = m * 2 ^ e * den) :
    f64IsFinite (f64Round neg num den) = true ∧ f64Mag (f64Round neg num den) = m * 2 ^ e ∧
      f64Sign (f64Round neg num den) = neg := by
  have hq : num / den = m * 2 ^ e := by rw [hnum, Nat.mul_div_cancel _ hden]
  generalize hs : Nat.log2 (num / den) - 52 = s
  have hse : s ≤ e := by
    rcases Nat.eq_zero_or_pos s with h0 | h0
    · omega
    have hne : num / den ≠ 0 := fun h => by
      rw [h, Nat.log2_zero] at hs
      omega
    have h1 : 2 ^ (num / den).log2 ≤ num / den := Nat.log2_self_le hne
    have h2 : num / den < 2 ^ (53 + e) := by
      rw [hq, Nat.pow_add]
      exact Nat.mul_lt_mul_of_pos_right hm (Nat.two_pow_pos e)
    have := (Nat.pow_lt_pow_iff_right (a := 2) (by norm_num)).1 (lt_of_le_of_lt h1 h2)
    omega
  obtain ⟨d, rfl⟩ := Nat.exists_eq_add_of_le hse
  have hunit : num = (m * 2 ^ d) * (den <<< s) := by rw [hnum, Nat.shiftLeft_eq, Nat.pow_add]; ring
  have hup : 0 < den <<< s := by rw [Nat.shiftLeft_eq]; positivity
  have hqq : num / (den <<< s) = m * 2 ^ d := by rw [hunit, Nat.mul_div_cancel _ hup]
  have hrr : num % (den <<< s) = 0 := by rw [hunit, Nat.mul_mod_left]
  have hval : num / den = m * 2 ^ d * 2 ^ s := by rw [hq, Nat.pow_add]; ring
  have hlt : m * 2 ^ d < 2 ^ 53 := by
    rcases Nat.eq_zero_or_pos (num / den) with h0 | h0
    · have : m * 2 ^ d = 0 := by
        rcases Nat.mul_eq_zero.1 (hval ▸ h0) with h | h
        · exact h
        · exact absurd h (by positivity)
      omega
    have h1 : num / den < 2 ^ ((num / den).log2 + 1) := Nat.lt_log2_self
    have h2 : (num / den).log2 + 1 ≤ 53 + s := by omega
    have h3 := lt_of_lt_of_le h1 (Nat.pow_le_pow_right (by norm_num) h2)
    rw [hval, Nat.pow_add] at h3
    exact Nat.lt_of_mul_lt_mul_right h3
  have hge : s = 0 ∨ 2 ^ 52 ≤ m * 2 ^ d := by
    rcases Nat.eq_zero_or_pos s with h0 | h0
    · exact .inl h0
    right
    have hne : num / den ≠ 0 := fun h => by
      rw [h, Nat.log2_zero] at hs
      omega
    have h1 : 2 ^ (num / den).log2 ≤ num / den := Nat.log2_self_le hne
    rw [show (num / den).log2 = 52 + s by omega, Nat.pow_add, hval] at h1
    exact Nat.le_of_mul_le_mul_right h1 (Nat.two_pow_pos s)
  have hb : (s <<< 52) + m * 2 ^ d < 0x7FF <<< 52 := by
    rw [Nat.shiftLeft_eq, Nat.shiftLeft_eq]
    omega
  have hr : f64Round neg num den = f64WithSign neg ((s <<< 52) + m * 2 ^ d) := by
    unfold f64Round
    simp only [hs, hqq, hrr]
    rw [if_neg (show ¬(den <<< s < 2 * 0 ∨ den <<< s = 2 * 0 ∧ m * 2 ^ d % 2 = 1) by omega), if_neg (Nat.not_le.2 hb)]
  rw [hr]
  obtain ⟨h1, h2⟩ := f64Mag_packed neg s (m * 2 ^ d) hge hlt.le hb
  exact ⟨h1, by rw [h2, Nat.pow_add]; ring, f64Sign_withSign _ _⟩

/-! ### Rounding is to nearest, ties to even -/

/-- A finite datum's magnitude is a significand of at most 53 bits, shifted; a shifted one has all 53. -/
theorem f64Mag_form (c : F64) : ∃ m e, f64Mag c = m * 2 ^ e ∧ m < 2 ^ 53 ∧ (e = 0 ∨ 2 ^ 52 ≤ m) := by
  have hf := f64Frac_lt c
  unfold f64Mag
  by_cases h : f64Exp c = 0
  · exact ⟨f64Frac c, 0, by simp [h], by omega, .inl rfl⟩
  · exact ⟨2 ^ 52 + f64Frac c, f64Exp c - 1, by rw [if_neg h, Nat.shiftLeft_eq], by omega, .inr (Nat.le_add_right _ _)⟩

/-- No datum lies strictly between two neighbours of the grid that a rounding cuts to. -/
theorem f64Mag_gap (c : F64) (q s : Nat) (h : s = 0 ∨ 2 ^ 52 ≤ q) : f64Mag c ≤ q * 2 ^ s ∨ (q + 1) * 2 ^ s ≤ f64Mag c := by
  obtain ⟨m, e, hm, h1, he⟩ := f64Mag_form c
  rw [hm]
  rcases Nat.lt_or_ge e s with hlt | hge
  · left
    obtain ⟨d, rfl⟩ := Nat.exists_eq_add_of_lt hlt
    calc m * 2 ^ e ≤ (2 * q) * 2 ^ e := Nat.mul_le_mul_right _ (by omega)
      _ ≤ (2 * q) * 2 ^ (e + d) := Nat.mul_le_mul_left _ (Nat.pow_le_pow_right (by norm_num) (by omega))
      _ = q * 2 ^ (e + d + 1) := by rw [Nat.pow_succ]; ring
  · obtain ⟨d, rfl⟩ := Nat.exists_eq_add_of_le hge
    rw [show m * 2 ^ (s + d) = (m * 2 ^ d) * 2 ^ s by rw [Nat.pow_add]; ring]
    rcases Nat.lt_or_ge q (m * 2 ^ d) with h | h
    · exact .inr (Nat.mul_le_mul_right _ h)
    · exact .inl (Nat.mul_le_mul_right _ h)

/-- The nearer end of a cell is nearest among all points outside the cell's inside; on a tie the even one. -/
theorem nearest_end (num den u q r s m : ℕ) (C : ℤ) (hden : 0 < den) (hu : u = den * 2 ^ s) (hn : num = q * u + r) (hr : r < u)
    (hm : m = if u < 2 * r ∨ (u = 2 * r ∧ q % 2 = 1) then q + 1 else q)
    (hC : C ≤ (q * 2 ^ s : ℕ) ∨ ((q + 1) * 2 ^ s : ℕ) ≤ C) :
    |(num : ℤ) - (m * 2 ^ s : ℕ) * den| ≤ |(num : ℤ) - C * den| ∧
      (|(num : ℤ) - (m * 2 ^ s : ℕ) * den| = |(num : ℤ) - C * den| → C ≠ (m * 2 ^ s : ℕ) → m % 2 = 0) := by
  have hd : (0 : ℤ) < den := by exact_mod_cast hden
  have hC' : C * den ≤ q * u ∨ q * u + u ≤ C * den := by
    rcases hC with h | h
    · left
      have := mul_le_mul_of_nonneg_right h hd.le
      rw [hu]; push_cast at this ⊢; linarith
    · right
      have := mul_le_mul_of_nonneg_right h hd.le
      rw [hu]; push_cast at this ⊢; linarith
  have hMq : ∀ k : ℕ, ((k * 2 ^ s : ℕ) : ℤ) * den = k * u := by intro k; rw [hu]; push_cast; ring
  have hinj : C * den = (m * 2 ^ s : ℕ) * den → C = (m * 2 ^ s : ℕ) := fun h => mul_right_cancel₀ hd.ne' h
  rw [hMq] at hinj ⊢
  generalize hX : C * (den : ℤ) = X at *
  have hnz : (num : ℤ) = q * u + r := by rw [hn]; push_cast; ring
  rw [hnz]
  split at hm
  · rename_i hc
    subst hm
    push_cast at hinj ⊢
    rw [add_mul, one_mul] at hinj ⊢
    generalize (q : ℤ) * u = Q at *
    simp only [Int.abs_eq_natAbs]
    refine ⟨by omega, fun he hne => ?_⟩
    have : X ≠ Q + u := fun h => hne (hinj h)
    omega
  · rename_i hc
    subst hm
    generalize (m : ℤ) * u = Q at *
    simp only [Int.abs_eq_natAbs]
    refine ⟨by omega, fun he hne => ?_⟩
    have : X ≠ Q := fun h => hne (hinj h)
    omega

/-- The quotient that a rounding cuts to: at most 53 bits, and all 53 when bits are cut off. -/
theorem cut_quotient (num den : Nat) :
    num / (den * 2 ^ (Nat.log2 (num / den) - 52)) < 2 ^ 53 ∧
      (Nat.log2 (num / den) - 52 = 0 ∨ 2 ^ 52 ≤ num / (den * 2 ^ (Nat.log2 (num / den) - 52))) := by
  rw [← Nat.div_div_eq_div_mul]
  generalize num / den = x
  generalize hs : x.log2 - 52 = s
  have h2 : x < 2 ^ (x.log2 + 1) := Nat.lt_log2_self
  constructor
  · rw [Nat.div_lt_iff_lt_mul (Nat.two_pow_pos s), ← Nat.pow_add]
    exact lt_of_lt_of_le h2 (Nat.pow_le_pow_right (by norm_num) (by omega))
  · rcases Nat.eq_zero_or_pos s with h | h
    · exact .inl h
    right
    rw [Nat.le_div_iff_mul_le (Nat.two_pow_pos s), ← Nat.pow_add, show 52 + s = x.log2 by omega]
    exact Nat.log2_self_le fun h0 => by rw [h0, Nat.log2_zero] at hs; omega

/-- Below the overflow bound the packed encoding is below that of infinity. -/
theorem packed_lt (num den q r s m T : ℕ) (hn : num = q * (den * 2 ^ s) + r) (hr : r < den * 2 ^ s) (hq : q < 2 ^ 53)
    (hs : s = 0 ∨ 2 ^ 52 ≤ q) (hm : m = if den * 2 ^ s < 2 * r ∨ (den * 2 ^ s = 2 * r ∧ q % 2 = 1) then q + 1 else q)
    (hb : num < (2 ^ 54 - 1) * 2 ^ T * den) : s * 2 ^ 52 + m < (T + 3) * 2 ^ 52 := by
  have hmq : m ≤ q + 1 := by split at hm <;> omega
  rcases Nat.lt_or_ge s (T + 1) with h | h
  · omega
  obtain ⟨d, rfl⟩ := Nat.exists_eq_add_of_le h
  have e : den * 2 ^ (T + 1 + d) = (2 ^ T * den) * (2 * 2 ^ d) := by
    rw [Nat.pow_add, Nat.pow_succ]; ring
  rw [e] at hn hr hm
  rw [Nat.mul_assoc (2 ^ 54 - 1)] at hb
  generalize 2 ^ T * den = w at *
  have hq52 : 2 ^ 52 ≤ q := by omega
  have hd : d = 0 := by
    by_contra h0
    have h2 : 2 * 2 ≤ 2 * 2 ^ d := Nat.mul_le_mul_left _ (by
      calc 2 = 2 ^ 1 := rfl
        _ ≤ 2 ^ d := Nat.pow_le_pow_right (by norm_num) (by omega))
    have h3 : 2 ^ 52 * (w * 4) ≤ q * (w * (2 * 2 ^ d)) := Nat.mul_le_mul hq52 (Nat.mul_le_mul_left _ h2)
    omega
  subst hd
  rw [Nat.pow_zero, Nat.mul_one] at hn hr hm
  have hqw : q * (w * 2) = 2 * (q * w) := by ring
  rw [hqw] at hn
  have : q + 1 < 2 ^ 53 ∨ m = q := by
    by_contra hc
    rw [not_or] at hc
    have hq3 : q = 2 ^ 53 - 1 := by omega
    have hup : w * 2 ≤ 2 * r := by
      split at hm
      · omega
      · exact absurd hm hc.2
    subst hq3
    omega
  omega

/-- What `f64Round` delivers below the overflow bound (`T` stands for 2044, so that no tactic evaluates the power). -/
theorem f64Round_nearest (neg : Bool) (num den T : Nat) (hden : 0 < den) (hT : T = 2044)
    (hb : num < (2 ^ 54 - 1) * 2 ^ T * den) :
    IsRounded ((if neg then -1 else 1) * ((num : ℚ) / den / 2 ^ 1074)) (f64Round neg num den) := by
  obtain ⟨hq, hs⟩ := cut_quotient num den
  generalize hS : Nat.log2 (num / den) - 52 = s at *
  have hup : 0 < den * 2 ^ s := by positivity
  generalize hQ : num / (den * 2 ^ s) = q at *
  have hn : num = q * (den * 2 ^ s) + num % (den * 2 ^ s) := by rw [← hQ, Nat.mul_comm]; exact (Nat.div_add_mod _ _).symm
  have hr := Nat.mod_lt num hup
  generalize hR : num % (den * 2 ^ s) = r at *
  obtain ⟨m, hm⟩ : ∃ m, m = if den * 2 ^ s < 2 * r ∨ (den * 2 ^ s = 2 * r ∧ q % 2 = 1) then q + 1 else q := ⟨_, rfl⟩
  have hlt := packed_lt num den q r s m T hn hr hq hs hm hb
  rw [hT] at hlt
  clear hb
  have hmq : q ≤ m ∧ m ≤ q + 1 := by split at hm <;> omega
  have hround : f64Round neg num den = f64WithSign neg (s <<< 52 + m) := by
    unfold f64Round
    simp only [hS, Nat.shiftLeft_eq, hQ, hR, ← hm]
    rw [if_neg (by omega)]
  obtain ⟨hfin, hmag⟩ := f64Mag_packed neg s m (by omega) (by omega) (by rw [Nat.shiftLeft_eq, Nat.shiftLeft_eq]; omega)
  have hsgn := f64Sign_withSign neg (s <<< 52 + m)
  have hlsb : (f64WithSign neg (s <<< 52 + m)).getLsbD 0 = decide (m % 2 = 1) := by
    rw [BitVec.getLsbD, toNat_withSign _ _ (by rw [Nat.shiftLeft_eq]; omega), Nat.testBit_eq_decide_div_mod_eq, Nat.shiftLeft_eq]
    congr 1
    simp only [pow_zero, Nat.div_one, eq_iff_iff]
    omega
  rw [hround]
  refine ⟨hfin, fun c hc => ?_⟩
  obtain ⟨C, hC, hv⟩ : ∃ C : ℤ, (C ≤ (q * 2 ^ s : ℕ) ∨ ((q + 1) * 2 ^ s : ℕ) ≤ C) ∧
      f64Value c = (if neg then -1 else 1) * ((C : ℚ) / 2 ^ 1074) := by
    have hg := f64Mag_gap c q s hs
    by_cases h : f64Sign c = neg
    · exact ⟨f64Mag c, by exact_mod_cast hg, by rw [f64Value_eq_mag, h]; simp⟩
    · refine ⟨-f64Mag c, .inl ?_, ?_⟩
      · have : (0 : ℤ) ≤ (q * 2 ^ s : ℕ) := Int.natCast_nonneg _
        omega
      · rw [f64Value_eq_mag]
        generalize (2 : ℚ) ^ 1074 = w
        cases neg <;> cases hh : f64Sign c <;> simp_all <;> ring
  have key := nearest_end num den _ q r s m C hden rfl hn hr hm hC
  have hvr : f64Value (f64WithSign neg (s <<< 52 + m)) = (if neg then -1 else 1) * (((m * 2 ^ s : ℕ) : ℚ) / 2 ^ 1074) := by
    rw [f64Value_eq_mag, hsgn, hmag]
  have hdist : ∀ z : ℤ, |(if neg then (-1 : ℚ) else 1) * ((num : ℚ) / den / 2 ^ 1074) - (if neg then -1 else 1) * ((z : ℚ) / 2 ^ 1074)|
      = ((|(num : ℤ) - z * den| : ℤ) : ℚ) / (den * 2 ^ 1074) := by
    intro z
    have hw : (0 : ℚ) < 2 ^ 1074 := by positivity
    generalize (2 : ℚ) ^ 1074 = w at *
    have hd : (0 : ℚ) < den := by exact_mod_cast hden
    rw [← mul_sub, abs_mul]
    have : |(if neg then (-1 : ℚ) else 1)| = 1 := by cases neg <;> simp
    rw [this, one_mul, show (num : ℚ) / den / w - z / w = (num - z * den) / (den * w) by field_simp, abs_div,
      abs_of_pos (mul_pos hd hw)]
    push_cast
    rfl
  have hdm := hdist ((m * 2 ^ s : ℕ) : ℤ)
  rw [Int.cast_natCast] at hdm
  rw [hv, hvr, hdist C, hdm]
  have hw : (0 : ℚ) < den * 2 ^ 1074 := by
    have hd : (0 : ℚ) < den := by exact_mod_cast hden
    positivity
  refine ⟨div_le_div_of_nonneg_right (by exact_mod_cast key.1) hw.le, fun he hne => ?_⟩
  rw [div_left_inj' hw.ne'] at he
  have hm2 := key.2 (by exact_mod_cast he) (fun h => hne (by rw [h, Int.cast_natCast]))
  rw [hlsb, hm2]
  rfl

/-! ### Addition, halving, midpoint -/

theorem f64IsFinite_not_nan {a : F64} (h : f64IsFinite a = true) : f64IsNaN a = false := by
  simp_all [f64IsFinite, f64IsNaN]

theorem f64IsFinite_not_inf {a : F64} (h : f64IsFinite a = true) : f64IsInf a = false := by
  simp_all [f64IsFinite, f64IsInf]

/-- An addition whose exact sum is `z * 2^e` units with fewer than 54 bits in `z` delivers that sum. -/
theorem f64Add_exact {a b : F64} (ha : f64IsFinite a = true) (hb : f64IsFinite b = true) (z : ℤ) (e : ℕ)
    (hz : z.natAbs < 2 ^ 53) (he : e ≤ 2045) (h : f64Scaled a + f64Scaled b = z * 2 ^ e) :
    f64IsFinite (f64Add a b) = true ∧ f64Scaled (f64Add a b) = f64Scaled a + f64Scaled b := by
  unfold f64Add
  simp only [f64IsFinite_not_nan ha, f64IsFinite_not_nan hb, f64IsFinite_not_inf ha, f64IsFinite_not_inf hb,
    Bool.or_self, Bool.false_eq_true, if_false]
  by_cases h0 : f64Scaled a + f64Scaled b = 0
  · rw [if_pos h0, h0]
    have hp := f64Mag_packed (f64Sign a && f64Sign b) 0 0 (.inl rfl) (by norm_num) (by norm_num)
    simp only [Nat.zero_shiftLeft, Nat.add_zero, Nat.zero_mul] at hp
    exact ⟨hp.1, by simp [f64Zero, f64Scaled, hp.2]⟩
  · rw [if_neg h0]
    have habs : (f64Scaled a + f64Scaled b).natAbs = z.natAbs * 2 ^ e * 1 := by
      rw [h, Int.natAbs_mul, Int.natAbs_pow]
      simp
    obtain ⟨h1, h2, h3⟩ := f64Round_exact (decide (f64Scaled a + f64Scaled b < 0)) _ 1 z.natAbs e (by norm_num) hz he habs
    refine ⟨h1, ?_⟩
    rw [f64Scaled, h2, h3]
    by_cases hn : f64Scaled a + f64Scaled b < 0
    · simp only [hn, decide_true, if_true]
      omega
    · simp only [hn, decide_false, Bool.false_eq_true, if_false]
      omega

/-- A halving whose exact result has fewer than 54 bits delivers it. -/
theorem f64Half_exact {a : F64} (ha : f64IsFinite a = true) (z : ℤ) (e : ℕ) (hz : z.natAbs < 2 ^ 53) (he : e ≤ 2045)
    (h : f64Scaled a = 2 * (z * 2 ^ e)) :
    f64IsFinite (f64Div a f64Two) = true ∧ 2 * f64Scaled (f64Div a f64Two) = f64Scaled a := by
  have ht : f64IsNaN f64Two = false ∧ f64IsInf f64Two = false ∧ f64IsZero f64Two = false ∧ f64Sign f64Two = false ∧
      f64Mag f64Two = 2 ^ 1075 := by decide +kernel
  obtain ⟨t1, t2, t3, t4, t5⟩ := ht
  unfold f64Div
  simp only [f64IsFinite_not_nan ha, f64IsFinite_not_inf ha, t1, t2, t3, t4, t5, Bool.or_self, Bool.false_eq_true, if_false,
    Bool.bne_false]
  have hmag : f64Mag a = z.natAbs * 2 ^ e * 2 := by
    have : (f64Scaled a).natAbs = f64Mag a := by
      rw [f64Scaled]
      by_cases hs : f64Sign a <;> simp [hs]
    rw [← this, h, Int.natAbs_mul, Int.natAbs_mul, Int.natAbs_pow]
    simp
    ring
  have hnum : f64Mag a <<< 1074 = z.natAbs * 2 ^ e * 2 ^ 1075 := by
    rw [Nat.shiftLeft_eq, hmag, Nat.pow_succ' (n := 1074), Nat.mul_assoc]
  obtain ⟨h1, h2, h3⟩ := f64Round_exact (f64Sign a) _ (2 ^ 1075) z.natAbs e (Nat.two_pow_pos 1075) hz he hnum
  refine ⟨h1, ?_⟩
  rw [f64Scaled, f64Scaled, h2, h3, hmag]
  by_cases hs : f64Sign a <;> simp [hs] <;> ring

/-- The midpoint primitive is exact when the sum of the ends is an even multiple of a unit with fewer than 54 bits. -/
theorem f64Mid_exact {a b : F64} (ha : f64IsFinite a = true) (hb : f64IsFinite b = true) (z : ℤ) (e : ℕ)
    (hz : z.natAbs < 2 ^ 53) (he : e + 1 ≤ 2045) (h : f64Scaled a + f64Scaled b = z * 2 ^ (e + 1)) :
    f64IsFinite (f64Mid a b) = true ∧ f64Value (f64Mid a b) = (f64Value a + f64Value b) / 2 := by
  obtain ⟨s1, s2⟩ := f64Add_exact ha hb z (e + 1) hz he h
  obtain ⟨d1, d2⟩ := f64Half_exact s1 z e hz (by omega) (by rw [s2, h]; ring)
  refine ⟨d1, ?_⟩
  have h2 : (2 : ℚ) * f64Scaled (f64Mid a b) = f64Scaled a + f64Scaled b := by
    rw [s2] at d2
    exact_mod_cast d2
  rw [f64Value_eq_scaled, f64Value_eq_scaled, f64Value_eq_scaled, ← add_div, ← h2]
  generalize (2 : ℚ) ^ 1074 = u
  ring

/-! ### Comparison -/

theorem f64IsZero_mag {a : F64} (h : f64IsZero a = true) : f64Scaled a = 0 := by
  simp_all [f64IsZero, f64Scaled, f64Mag]

/-- Finite operands are compared by their real values; the two zeros are equal. -/
theorem f64Ge_finite {a b : F64} (ha : f64IsFinite a = true) (hb : f64IsFinite b = true) :
    f64Ge a b = decide (f64Value b ≤ f64Value a) := by
  unfold f64Ge
  simp only [f64IsFinite_not_nan ha, f64IsFinite_not_nan hb, f64IsFinite_not_inf ha, f64IsFinite_not_inf hb,
    Bool.false_eq_true, if_false, Bool.false_and]
  by_cases hz : (f64IsZero a && f64IsZero b) = true
  · rw [if_pos hz]
    rw [Bool.and_eq_true] at hz
    simp [f64Value_le_iff, f64IsZero_mag hz.1, f64IsZero_mag hz.2]
  · rw [if_neg hz]
    simp [f64Value_le_iff]

theorem f64Ge_nan_left {a : F64} (b : F64) (h : f64IsNaN a = true) : f64Ge a b = false := by
  simp [f64Ge, h]

theorem f64Ge_nan_right (a : F64) {b : F64} (h : f64IsNaN b = true) : f64Ge a b = false := by
  simp [f64Ge, h]

/-- An infinity against a finite midpoint: +inf is above, -inf below. -/
theorem f64Ge_inf_left {a b : F64} (ha : f64IsInf a = true) (hb : f64IsFinite b = true) : f64Ge a b = !f64Sign a := by
  have hn : f64IsNaN a = false := by simp_all [f64IsInf, f64IsNaN]
  have hz : f64IsZero a = false := by simp_all [f64IsInf, f64IsZero]
  unfold f64Ge
  simp only [hn, hz, ha, f64IsFinite_not_nan hb, f64IsFinite_not_inf hb, Bool.false_eq_true, if_false, Bool.false_and,
    Bool.true_and, if_true]
  cases f64Sign a <;> rfl

/-- A datum is a NaN, an infinity, or finite. -/
theorem f64_cases (a : F64) : f64IsNaN a = true ∨ f64IsInf a = true ∨ f64IsFinite a = true := by
  by_cases h : f64Exp a = 0x7FF <;> by_cases h2 : f64Frac a = 0 <;> simp [f64IsNaN, f64IsInf, f64IsFinite, h, h2]

/-! ### The constants -/

/-- A datum whose scaled value is `n` times 2^1074 has the value `n`. -/
theorem f64Value_of_scaled {a : F64} {n : ℤ} (h : f64Scaled a = n * 2 ^ 1074) : f64Value a = n := by
  rw [f64Value_eq_scaled, h, Int.cast_mul, Int.cast_pow, Int.cast_ofNat]
  exact mul_div_cancel_right₀ _ (pow_ne_zero _ two_ne_zero)

theorem f64Value_latMin : f64Value latMin = -90 := by
  exact_mod_cast f64Value_of_scaled (n := -90) (by decide +kernel)

theorem f64Value_latMax : f64Value latMax = 90 := by
  exact_mod_cast f64Value_of_scaled (n := 90) (by decide +kernel)

theorem f64Value_lonMin : f64Value lonMin = -180 := by
  exact_mod_cast f64Value_of_scaled (n := -180) (by decide +kernel)

theorem f64Value_lonMax : f64Value lonMax = 180 := by
  exact_mod_cast f64Value_of_scaled (n := 180) (by decide +kernel)

/-- Both starting midpoints are +0.0 (40_bisector.md R110). -/
theorem startMid_zero : f64Mid latMin latMax = 0 ∧ f64Mid lonMin lonMax = 0 := by decide +kernel

end Sys2Proof.Machine
end

