-- ==== Sys2Proof/Laws/Bisector.lean ====
section
/-! SUPPORT. The bisector: one step of a lane, steps on the grid of exact midpoints, and the source's function. -/
namespace Sys2Proof.Machine

/-! ### One step of a lane -/

theorem shiftIn_toNat (d : DirWord) (b : Bool) :
    (d.extractLsb' 0 31 ++ BitVec.ofBool b : DirWord).toNat = (2 * d.toNat + b.toNat) % 2 ^ 32 := by
  have hb : b.toNat < 2 ^ 1 := by cases b <;> decide
  have h : (d.extractLsb' 0 31 ++ BitVec.ofBool b : DirWord).toNat = d.toNat % 2 ^ 31 * 2 ^ 1 + b.toNat := by
    rw [BitVec.toNat_append, BitVec.extractLsb'_toNat, Nat.shiftRight_zero, BitVec.toNat_ofBool,
      ← Nat.shiftLeft_add_eq_or_of_lt hb, Nat.shiftLeft_eq]
  rw [h]
  omega

theorem shiftIn_eq (d : DirWord) (b : Bool) :
    (d.extractLsb' 0 31 ++ BitVec.ofBool b : DirWord) = d.shiftConcat b := by
  apply BitVec.eq_of_toNat_eq
  rw [shiftIn_toNat, BitVec.toNat_shiftConcat, Nat.shiftLeft_eq]
  have : b.toNat < 2 := by cases b <;> decide
  omega

/-- The upper half is taken. -/
theorem Lane.step_of_ge {l : Lane} (h : f64Ge l.value l.mid = true) :
    l.step = { l with lo := l.mid, mid := f64Mid l.mid l.hi, dirs := l.dirs.shiftConcat true } := by
  simp [Lane.step, h, ← shiftIn_eq]

/-- The lower half is taken. -/
theorem Lane.step_of_lt {l : Lane} (h : f64Ge l.value l.mid = false) :
    l.step = { l with hi := l.mid, mid := f64Mid l.lo l.mid, dirs := l.dirs.shiftConcat false } := by
  simp [Lane.step, h, ← shiftIn_eq]

@[simp] theorem Lane.step_value (l : Lane) : l.step.value = l.value := rfl

theorem Lane.step_dirs (l : Lane) : l.step.dirs = l.dirs.shiftConcat (f64Ge l.value l.mid) := shiftIn_eq _ _

theorem Lane.step_dirs_toNat {l : Lane} (h : l.dirs.toNat < 2 ^ 31) :
    l.step.dirs.toNat = 2 * l.dirs.toNat + (f64Ge l.value l.mid).toNat := by
  have hb : (f64Ge l.value l.mid).toNat ≤ 1 := Bool.toNat_le _
  show (l.dirs.extractLsb' 0 31 ++ BitVec.ofBool _ : DirWord).toNat = _
  rw [shiftIn_toNat]
  omega

@[simp] theorem Lane.steps_value (n : Nat) (l : Lane) : (l.steps n).value = l.value := by
  induction n generalizing l with
  | zero => rfl
  | succ n ih => rw [Lane.steps, ih, Lane.step_value]

theorem Lane.steps_succ (n : Nat) (l : Lane) : l.steps (n + 1) = (l.steps n).step := by
  induction n generalizing l with
  | zero => rfl
  | succ n ih => rw [Lane.steps, ih]; rfl

/-! ### Steps on the grid -/

/-- A step of a lane on the grid of `[-c, c]` stays on it, one level finer: the midpoint is exact (40_bisector.md
R112). -/
theorem Lane.OnGrid.step {c n : Nat} {l : Lane} (hc : c ≤ 180) (hn : n < 32) (h : l.OnGrid (-c) c n) :
    l.step.OnGrid (-c) c (n + 1) := by
  obtain ⟨fl, fm, fh, hd, hlo, hhi, hmid⟩ := h
  have hd31 : l.dirs.toNat < 2 ^ 31 := lt_of_lt_of_le hd (Nat.pow_le_pow_right (by norm_num) (by omega))
  have hdt := Lane.step_dirs_toNat hd31
  have hp : (2 : ℚ) ^ n ≠ 0 := pow_ne_zero _ two_ne_zero
  -- the new ends, by the bit
  have hends : f64IsFinite l.step.lo = true ∧ f64IsFinite l.step.hi = true ∧
      f64Value l.step.lo = -c + (l.step.dirs.toNat : ℚ) * ((c - (-c)) / 2 ^ (n + 1)) ∧
      f64Value l.step.hi = f64Value l.step.lo + (c - (-c)) / 2 ^ (n + 1) := by
    rw [hdt]
    cases hb : f64Ge l.value l.mid with
    | true =>
      rw [Lane.step_of_ge hb]
      refine ⟨fm, fh, ?_, ?_⟩
      · simp only [hmid, hlo, Bool.toNat_true]
        push_cast
        rw [pow_succ]
        field_simp
        ring
      · simp only [hmid, hhi]
        rw [pow_succ]
        field_simp
        ring
    | false =>
      rw [Lane.step_of_lt hb]
      refine ⟨fl, fm, ?_, ?_⟩
      · simp only [hlo, Bool.toNat_false]
        push_cast
        rw [pow_succ]
        field_simp
        ring
      · simp only [hmid]
        rw [pow_succ]
        field_simp
  obtain ⟨gl, gh, vl, vh⟩ := hends
  have hdn : l.step.dirs.toNat < 2 ^ (n + 1) := by
    have : (f64Ge l.value l.mid).toNat ≤ 1 := Bool.toNat_le _
    rw [hdt, pow_succ]
    omega
  have hmidEq : l.step.mid = f64Mid l.step.lo l.step.hi := rfl
  have hsum : f64Scaled l.step.lo + f64Scaled l.step.hi
      = (c * (2 * (l.step.dirs.toNat : ℤ) + 1 - 2 ^ (n + 1))) * 2 ^ (1073 - n + 1) := by
    have hq : (f64Scaled l.step.lo : ℚ) + f64Scaled l.step.hi
        = (c * (2 * (l.step.dirs.toNat : ℚ) + 1 - 2 ^ (n + 1))) * 2 ^ (1073 - n + 1) := by
      rw [f64Scaled_cast, f64Scaled_cast, vh, vl]
      have h2 : (2 : ℚ) ^ 1074 = 2 ^ n * 2 ^ (1073 - n + 1) := by
        rw [← pow_add]
        congr 1
        omega
      rw [h2, pow_succ 2 n]
      generalize (2 : ℚ) ^ (1073 - n + 1) = u
      field_simp
      ring
    exact_mod_cast hq
  have hz : ((c : ℤ) * (2 * (l.step.dirs.toNat : ℤ) + 1 - 2 ^ (n + 1))).natAbs < 2 ^ 53 := by
    have h32 : 2 ^ (n + 1) ≤ 2 ^ 32 := Nat.pow_le_pow_right (by norm_num) (by omega)
    have h1 : (2 * (l.step.dirs.toNat : ℤ) + 1 - 2 ^ (n + 1)).natAbs ≤ 2 ^ 32 := by
      have : ((2 : ℤ) ^ (n + 1)) = ((2 ^ (n + 1) : ℕ) : ℤ) := by push_cast; ring
      rw [this]
      omega
    rw [Int.natAbs_mul, Int.natAbs_natCast]
    calc c * _ ≤ 180 * 2 ^ 32 := Nat.mul_le_mul hc h1
      _ < 2 ^ 53 := by norm_num
  obtain ⟨gm, vm⟩ := f64Mid_exact gl gh _ (1073 - n) hz (by omega) hsum
  refine ⟨gl, hmidEq ▸ gm, gh, hdn, vl, vh, ?_⟩
  rw [hmidEq, vm, vh]
  ring

theorem Lane.OnGrid.steps {c n : Nat} {l : Lane} (hc : c ≤ 180) (m : Nat) (hm : n + m ≤ 32) (h : l.OnGrid (-c) c n) :
    (l.steps m).OnGrid (-c) c (n + m) := by
  induction m generalizing n l with
  | zero => exact h
  | succ m ih =>
    rw [Lane.steps, show n + (m + 1) = n + 1 + m by omega]
    exact ih (by omega) (Lane.OnGrid.step hc (by omega) h)

theorem f64Value_zero : f64Value 0 = 0 := by
  exact_mod_cast f64Value_of_scaled (n := 0) (by decide +kernel)

theorem latBracket_eq : latBracket = ⟨latMin, 0, latMax⟩ := by rw [latBracket, startMid_zero.1]

theorem lonBracket_eq : lonBracket = ⟨lonMin, 0, lonMax⟩ := by rw [lonBracket, startMid_zero.2]

/-- A lane loaded with a bracket `[-c, c]` and midpoint +0.0 is on its grid. -/
theorem load_onGrid (v lo hi : F64) (c : ℕ) (fl : f64IsFinite lo = true) (fh : f64IsFinite hi = true)
    (vl : f64Value lo = -c) (vh : f64Value hi = c) : (Lane.load v ⟨lo, 0, hi⟩).OnGrid (-c) c 0 := by
  simp only [Lane.OnGrid, Lane.load]
  refine ⟨fl, by decide, fh, by decide, ?_, ?_, ?_⟩
  · simp [vl]
  · rw [vl, vh]
    ring
  · rw [vl, f64Value_zero]
    ring

theorem load_lat_onGrid (v : F64) : (Lane.load v latBracket).OnGrid (-(90 : ℕ)) (90 : ℕ) 0 := by
  rw [latBracket_eq]
  exact load_onGrid v _ _ 90 (by decide +kernel) (by decide +kernel) (by rw [f64Value_latMin]; norm_num)
    (by rw [f64Value_latMax]; norm_num)

theorem load_lon_onGrid (v : F64) : (Lane.load v lonBracket).OnGrid (-(180 : ℕ)) (180 : ℕ) 0 := by
  rw [lonBracket_eq]
  exact load_onGrid v _ _ 180 (by decide +kernel) (by decide +kernel) (by rw [f64Value_lonMin]; norm_num)
    (by rw [f64Value_lonMax]; norm_num)

/-! ### The source's function and the lane -/

/-- `n` steps of a lane are the source's BISECT from its bracket (40_bisector.md R108). -/
theorem Lane.steps_eq_bisect (n : Nat) (l : Lane) :
    l.steps n =
      { value := l.value, lo := (bisect l.value ⟨l.lo, l.mid, l.hi⟩ n).2.low,
        mid := (bisect l.value ⟨l.lo, l.mid, l.hi⟩ n).2.mid, hi := (bisect l.value ⟨l.lo, l.mid, l.hi⟩ n).2.high,
        dirs := (bisect l.value ⟨l.lo, l.mid, l.hi⟩ n).1.foldl (fun w b => w.shiftConcat b) l.dirs } := by
  induction n generalizing l with
  | zero => rfl
  | succ n ih =>
    rw [Lane.steps, ih]
    cases hb : f64Ge l.value l.mid with
    | true => simp only [Lane.step_of_ge hb, bisect, hb, List.foldl_cons]
    | false => simp only [Lane.step_of_lt hb, bisect, hb, List.foldl_cons]

theorem bisect_length (v : F64) (b : Bracket) (n : Nat) : (bisect v b n).1.length = n := by
  induction n generalizing b with
  | zero => rfl
  | succ n ih => cases hb : f64Ge v b.mid <;> simp [bisect, hb, ih]

/-- The registers ENCODE leaves are those of 32 steps of a loaded lane. -/
theorem laneAfter_eq (v : F64) (b : Bracket) : laneAfter v b = (Lane.load v b).steps 32 := by
  simp only [laneAfter, Lane.steps_eq_bisect, Lane.load, dirWord, Config.steps]

end Sys2Proof.Machine
end

