-- ==== Sys2Proof/Laws/Decode.lean ====
section
/-! SUPPORT. The fields of a request word. -/
namespace Sys2Proof

theorem reqWord_toNat (lat lon : F64) (prec : BitVec 32) :
    (reqWord lat lon prec).toNat = lat.toNat * 2 ^ 96 + lon.toNat * 2 ^ 32 + prec.toNat := by
  have h1 : (lat ++ lon).toNat = lat.toNat * 2 ^ 64 + lon.toNat := by
    rw [BitVec.toNat_append, ← Nat.shiftLeft_add_eq_or_of_lt lon.isLt, Nat.shiftLeft_eq]
  have h2 : (reqWord lat lon prec).toNat = (lat ++ lon).toNat * 2 ^ 32 + prec.toNat := by
    rw [reqWord, BitVec.toNat_append, ← Nat.shiftLeft_add_eq_or_of_lt prec.isLt, Nat.shiftLeft_eq]
  rw [h2, h1]
  ring

theorem reqLat_toNat (w : RequestWord) : (reqLat w).toNat = w.toNat / 2 ^ 96 % 2 ^ 64 := by
  rw [reqLat, BitVec.extractLsb'_toNat, Nat.shiftRight_eq_div_pow]

theorem reqLon_toNat (w : RequestWord) : (reqLon w).toNat = w.toNat / 2 ^ 32 % 2 ^ 64 := by
  rw [reqLon, BitVec.extractLsb'_toNat, Nat.shiftRight_eq_div_pow]

theorem reqPrec_toNat (w : RequestWord) : (reqPrec w).toNat = w.toNat % 2 ^ 32 := by
  rw [reqPrec, BitVec.extractLsb'_toNat, Nat.shiftRight_zero]

@[simp] theorem reqLat_reqWord (lat lon : F64) (prec : BitVec 32) : reqLat (reqWord lat lon prec) = lat := by
  have := lat.isLt; have := lon.isLt; have := prec.isLt
  apply BitVec.eq_of_toNat_eq
  rw [reqLat_toNat, reqWord_toNat]
  omega

@[simp] theorem reqLon_reqWord (lat lon : F64) (prec : BitVec 32) : reqLon (reqWord lat lon prec) = lon := by
  have := lat.isLt; have := lon.isLt; have := prec.isLt
  apply BitVec.eq_of_toNat_eq
  rw [reqLon_toNat, reqWord_toNat]
  omega

@[simp] theorem reqPrec_reqWord (lat lon : F64) (prec : BitVec 32) : reqPrec (reqWord lat lon prec) = prec := by
  have := lat.isLt; have := lon.isLt; have := prec.isLt
  apply BitVec.eq_of_toNat_eq
  rw [reqPrec_toNat, reqWord_toNat]
  omega

/-- A request word is the word of its three fields. -/
@[simp] theorem reqWord_fields (w : RequestWord) : reqWord (reqLat w) (reqLon w) (reqPrec w) = w := by
  have := w.isLt
  apply BitVec.eq_of_toNat_eq
  rw [reqWord_toNat, reqLat_toNat, reqLon_toNat, reqPrec_toNat]
  omega

end Sys2Proof
end

