-- ==== Sys2Proof/Laws/State.lean ====
section
/-! SUPPORT. One lemma per field per update of the state. -/
namespace Sys2Proof.Machine

/-! ### The sequencer's states are different -/

@[simp] theorem IDLE_ne_BISECT : IDLE ≠ BISECT := by decide
@[simp] theorem IDLE_ne_EMIT : IDLE ≠ EMIT := by decide
@[simp] theorem IDLE_ne_ERROR : IDLE ≠ ERROR := by decide
@[simp] theorem BISECT_ne_IDLE : BISECT ≠ IDLE := by decide
@[simp] theorem BISECT_ne_EMIT : BISECT ≠ EMIT := by decide
@[simp] theorem BISECT_ne_ERROR : BISECT ≠ ERROR := by decide
@[simp] theorem EMIT_ne_IDLE : EMIT ≠ IDLE := by decide
@[simp] theorem EMIT_ne_BISECT : EMIT ≠ BISECT := by decide
@[simp] theorem EMIT_ne_ERROR : EMIT ≠ ERROR := by decide
@[simp] theorem ERROR_ne_IDLE : ERROR ≠ IDLE := by decide
@[simp] theorem ERROR_ne_BISECT : ERROR ≠ BISECT := by decide
@[simp] theorem ERROR_ne_EMIT : ERROR ≠ EMIT := by decide

variable (s : State)

/-! ### setSt -/

@[simp] theorem State.setSt_st (v : BitVec 3) : (s.setSt v).st = v := rfl
@[simp] theorem State.setSt_k (v : BitVec 3) : (s.setSt v).k = s.k := rfl
@[simp] theorem State.setSt_i (v : BitVec 3) : (s.setSt v).i = s.i := rfl
@[simp] theorem State.setSt_prec (v : BitVec 3) : (s.setSt v).prec = s.prec := rfl
@[simp] theorem State.setSt_lat (v : BitVec 3) : (s.setSt v).lat = s.lat := rfl
@[simp] theorem State.setSt_lon (v : BitVec 3) : (s.setSt v).lon = s.lon := rfl
@[simp] theorem State.setSt_written (v : BitVec 3) : (s.setSt v).written = s.written := rfl
@[simp] theorem State.setSt_pins (v : BitVec 3) : (s.setSt v).pins = s.pins := rfl
@[simp] theorem State.setSt_bench (v : BitVec 3) : (s.setSt v).bench = s.bench := rfl
@[simp] theorem State.setSt_beats (v : BitVec 3) : (s.setSt v).beats = s.beats := rfl
@[simp] theorem State.setSt_nets (v : BitVec 3) : (s.setSt v).nets = s.nets := rfl
@[simp] theorem State.setSt_freeIdx (v : BitVec 3) : (s.setSt v).freeIdx = s.freeIdx := rfl

/-! ### setK -/

@[simp] theorem State.setK_st (v : BitVec 5) : (s.setK v).st = s.st := rfl
@[simp] theorem State.setK_k (v : BitVec 5) : (s.setK v).k = v := rfl
@[simp] theorem State.setK_i (v : BitVec 5) : (s.setK v).i = s.i := rfl
@[simp] theorem State.setK_prec (v : BitVec 5) : (s.setK v).prec = s.prec := rfl
@[simp] theorem State.setK_lat (v : BitVec 5) : (s.setK v).lat = s.lat := rfl
@[simp] theorem State.setK_lon (v : BitVec 5) : (s.setK v).lon = s.lon := rfl
@[simp] theorem State.setK_written (v : BitVec 5) : (s.setK v).written = s.written := rfl
@[simp] theorem State.setK_pins (v : BitVec 5) : (s.setK v).pins = s.pins := rfl
@[simp] theorem State.setK_bench (v : BitVec 5) : (s.setK v).bench = s.bench := rfl
@[simp] theorem State.setK_beats (v : BitVec 5) : (s.setK v).beats = s.beats := rfl
@[simp] theorem State.setK_nets (v : BitVec 5) : (s.setK v).nets = s.nets := rfl
@[simp] theorem State.setK_freeIdx (v : BitVec 5) : (s.setK v).freeIdx = s.freeIdx := rfl

/-! ### setI -/

@[simp] theorem State.setI_st (v : BitVec 4) : (s.setI v).st = s.st := rfl
@[simp] theorem State.setI_k (v : BitVec 4) : (s.setI v).k = s.k := rfl
@[simp] theorem State.setI_i (v : BitVec 4) : (s.setI v).i = v := rfl
@[simp] theorem State.setI_prec (v : BitVec 4) : (s.setI v).prec = s.prec := rfl
@[simp] theorem State.setI_lat (v : BitVec 4) : (s.setI v).lat = s.lat := rfl
@[simp] theorem State.setI_lon (v : BitVec 4) : (s.setI v).lon = s.lon := rfl
@[simp] theorem State.setI_written (v : BitVec 4) : (s.setI v).written = s.written := rfl
@[simp] theorem State.setI_pins (v : BitVec 4) : (s.setI v).pins = s.pins := rfl
@[simp] theorem State.setI_bench (v : BitVec 4) : (s.setI v).bench = s.bench := rfl
@[simp] theorem State.setI_beats (v : BitVec 4) : (s.setI v).beats = s.beats := rfl
@[simp] theorem State.setI_nets (v : BitVec 4) : (s.setI v).nets = s.nets := rfl
@[simp] theorem State.setI_freeIdx (v : BitVec 4) : (s.setI v).freeIdx = s.freeIdx := rfl

/-! ### setLanes -/

@[simp] theorem State.setLanes_st (a o : Lane) : (s.setLanes a o).st = s.st := rfl
@[simp] theorem State.setLanes_k (a o : Lane) : (s.setLanes a o).k = s.k := rfl
@[simp] theorem State.setLanes_i (a o : Lane) : (s.setLanes a o).i = s.i := rfl
@[simp] theorem State.setLanes_prec (a o : Lane) : (s.setLanes a o).prec = s.prec := rfl
@[simp] theorem State.setLanes_lat (a o : Lane) : (s.setLanes a o).lat = a := rfl
@[simp] theorem State.setLanes_lon (a o : Lane) : (s.setLanes a o).lon = o := rfl
@[simp] theorem State.setLanes_written (a o : Lane) : (s.setLanes a o).written = s.written := rfl
@[simp] theorem State.setLanes_pins (a o : Lane) : (s.setLanes a o).pins = s.pins := rfl
@[simp] theorem State.setLanes_bench (a o : Lane) : (s.setLanes a o).bench = s.bench := rfl
@[simp] theorem State.setLanes_beats (a o : Lane) : (s.setLanes a o).beats = s.beats := rfl
@[simp] theorem State.setLanes_nets (a o : Lane) : (s.setLanes a o).nets = s.nets := rfl
@[simp] theorem State.setLanes_freeIdx (a o : Lane) : (s.setLanes a o).freeIdx = s.freeIdx := rfl

/-! ### setNets -/

@[simp] theorem State.setNets_st (n : Nets) : (s.setNets n).st = s.st := rfl
@[simp] theorem State.setNets_k (n : Nets) : (s.setNets n).k = s.k := rfl
@[simp] theorem State.setNets_i (n : Nets) : (s.setNets n).i = s.i := rfl
@[simp] theorem State.setNets_prec (n : Nets) : (s.setNets n).prec = s.prec := rfl
@[simp] theorem State.setNets_lat (n : Nets) : (s.setNets n).lat = s.lat := rfl
@[simp] theorem State.setNets_lon (n : Nets) : (s.setNets n).lon = s.lon := rfl
@[simp] theorem State.setNets_written (n : Nets) : (s.setNets n).written = s.written := rfl
@[simp] theorem State.setNets_pins (n : Nets) : (s.setNets n).pins = s.pins := rfl
@[simp] theorem State.setNets_bench (n : Nets) : (s.setNets n).bench = s.bench := rfl
@[simp] theorem State.setNets_beats (n : Nets) : (s.setNets n).beats = s.beats := rfl
@[simp] theorem State.setNets_nets (n : Nets) : (s.setNets n).nets = n := rfl
@[simp] theorem State.setNets_freeIdx (n : Nets) : (s.setNets n).freeIdx = s.freeIdx := rfl

/-! ### loadData -/

@[simp] theorem State.loadData_st (p : BitVec 4) (a o : Lane) : (s.loadData p a o).st = s.st := rfl
@[simp] theorem State.loadData_k (p : BitVec 4) (a o : Lane) : (s.loadData p a o).k = s.k := rfl
@[simp] theorem State.loadData_i (p : BitVec 4) (a o : Lane) : (s.loadData p a o).i = s.i := rfl
@[simp] theorem State.loadData_prec (p : BitVec 4) (a o : Lane) : (s.loadData p a o).prec = p := rfl
@[simp] theorem State.loadData_lat (p : BitVec 4) (a o : Lane) : (s.loadData p a o).lat = a := rfl
@[simp] theorem State.loadData_lon (p : BitVec 4) (a o : Lane) : (s.loadData p a o).lon = o := rfl
@[simp] theorem State.loadData_written (p : BitVec 4) (a o : Lane) : (s.loadData p a o).written = true := rfl
@[simp] theorem State.loadData_pins (p : BitVec 4) (a o : Lane) : (s.loadData p a o).pins = s.pins := rfl
@[simp] theorem State.loadData_bench (p : BitVec 4) (a o : Lane) : (s.loadData p a o).bench = s.bench := rfl
@[simp] theorem State.loadData_beats (p : BitVec 4) (a o : Lane) : (s.loadData p a o).beats = s.beats := rfl
@[simp] theorem State.loadData_nets (p : BitVec 4) (a o : Lane) : (s.loadData p a o).nets = s.nets := rfl
@[simp] theorem State.loadData_freeIdx (p : BitVec 4) (a o : Lane) : (s.loadData p a o).freeIdx = s.freeIdx := rfl

/-! ### dropData -/

@[simp] theorem State.dropData_st (p : BitVec 4) (a o : Lane) (n : Nat) : (s.dropData p a o n).st = s.st := rfl
@[simp] theorem State.dropData_k (p : BitVec 4) (a o : Lane) (n : Nat) : (s.dropData p a o n).k = s.k := rfl
@[simp] theorem State.dropData_i (p : BitVec 4) (a o : Lane) (n : Nat) : (s.dropData p a o n).i = s.i := rfl
@[simp] theorem State.dropData_prec (p : BitVec 4) (a o : Lane) (n : Nat) : (s.dropData p a o n).prec = p := rfl
@[simp] theorem State.dropData_lat (p : BitVec 4) (a o : Lane) (n : Nat) : (s.dropData p a o n).lat = a := rfl
@[simp] theorem State.dropData_lon (p : BitVec 4) (a o : Lane) (n : Nat) : (s.dropData p a o n).lon = o := rfl
@[simp] theorem State.dropData_written (p : BitVec 4) (a o : Lane) (n : Nat) : (s.dropData p a o n).written = false := rfl
@[simp] theorem State.dropData_pins (p : BitVec 4) (a o : Lane) (n : Nat) : (s.dropData p a o n).pins = s.pins := rfl
@[simp] theorem State.dropData_bench (p : BitVec 4) (a o : Lane) (n : Nat) : (s.dropData p a o n).bench = s.bench := rfl
@[simp] theorem State.dropData_beats (p : BitVec 4) (a o : Lane) (n : Nat) : (s.dropData p a o n).beats = s.beats := rfl
@[simp] theorem State.dropData_nets (p : BitVec 4) (a o : Lane) (n : Nat) : (s.dropData p a o n).nets = s.nets := rfl
@[simp] theorem State.dropData_freeIdx (p : BitVec 4) (a o : Lane) (n : Nat) : (s.dropData p a o n).freeIdx = s.freeIdx + n := rfl

/-! ### takeBeats -/

@[simp] theorem State.takeBeats_st (b : List Beat) : (s.takeBeats b).st = s.st := rfl
@[simp] theorem State.takeBeats_k (b : List Beat) : (s.takeBeats b).k = s.k := rfl
@[simp] theorem State.takeBeats_i (b : List Beat) : (s.takeBeats b).i = s.i := rfl
@[simp] theorem State.takeBeats_prec (b : List Beat) : (s.takeBeats b).prec = s.prec := rfl
@[simp] theorem State.takeBeats_lat (b : List Beat) : (s.takeBeats b).lat = s.lat := rfl
@[simp] theorem State.takeBeats_lon (b : List Beat) : (s.takeBeats b).lon = s.lon := rfl
@[simp] theorem State.takeBeats_written (b : List Beat) : (s.takeBeats b).written = s.written := rfl
@[simp] theorem State.takeBeats_pins (b : List Beat) : (s.takeBeats b).pins = s.pins := rfl
@[simp] theorem State.takeBeats_bench (b : List Beat) : (s.takeBeats b).bench = s.bench := rfl
@[simp] theorem State.takeBeats_beats (b : List Beat) : (s.takeBeats b).beats = s.beats ++ b := rfl
@[simp] theorem State.takeBeats_nets (b : List Beat) : (s.takeBeats b).nets = s.nets := rfl
@[simp] theorem State.takeBeats_freeIdx (b : List Beat) : (s.takeBeats b).freeIdx = s.freeIdx := rfl

/-! ### drive -/

@[simp] theorem State.drive_st (p : Pins) (b : Bench) : (s.drive p b).st = s.st := rfl
@[simp] theorem State.drive_k (p : Pins) (b : Bench) : (s.drive p b).k = s.k := rfl
@[simp] theorem State.drive_i (p : Pins) (b : Bench) : (s.drive p b).i = s.i := rfl
@[simp] theorem State.drive_prec (p : Pins) (b : Bench) : (s.drive p b).prec = s.prec := rfl
@[simp] theorem State.drive_lat (p : Pins) (b : Bench) : (s.drive p b).lat = s.lat := rfl
@[simp] theorem State.drive_lon (p : Pins) (b : Bench) : (s.drive p b).lon = s.lon := rfl
@[simp] theorem State.drive_written (p : Pins) (b : Bench) : (s.drive p b).written = s.written := rfl
@[simp] theorem State.drive_pins (p : Pins) (b : Bench) : (s.drive p b).pins = p := rfl
@[simp] theorem State.drive_bench (p : Pins) (b : Bench) : (s.drive p b).bench = b := rfl
@[simp] theorem State.drive_beats (p : Pins) (b : Bench) : (s.drive p b).beats = s.beats := rfl
@[simp] theorem State.drive_nets (p : Pins) (b : Bench) : (s.drive p b).nets = s.nets := rfl
@[simp] theorem State.drive_freeIdx (p : Pins) (b : Bench) : (s.drive p b).freeIdx = s.freeIdx := rfl

/-! ### setBench -/

@[simp] theorem State.setBench_st (b : Bench) : (s.setBench b).st = s.st := rfl
@[simp] theorem State.setBench_k (b : Bench) : (s.setBench b).k = s.k := rfl
@[simp] theorem State.setBench_i (b : Bench) : (s.setBench b).i = s.i := rfl
@[simp] theorem State.setBench_prec (b : Bench) : (s.setBench b).prec = s.prec := rfl
@[simp] theorem State.setBench_lat (b : Bench) : (s.setBench b).lat = s.lat := rfl
@[simp] theorem State.setBench_lon (b : Bench) : (s.setBench b).lon = s.lon := rfl
@[simp] theorem State.setBench_written (b : Bench) : (s.setBench b).written = s.written := rfl
@[simp] theorem State.setBench_pins (b : Bench) : (s.setBench b).pins = s.pins := rfl
@[simp] theorem State.setBench_bench (b : Bench) : (s.setBench b).bench = b := rfl
@[simp] theorem State.setBench_beats (b : Bench) : (s.setBench b).beats = s.beats := rfl
@[simp] theorem State.setBench_nets (b : Bench) : (s.setBench b).nets = s.nets := rfl
@[simp] theorem State.setBench_freeIdx (b : Bench) : (s.setBench b).freeIdx = s.freeIdx := rfl

end Sys2Proof.Machine
end

