-- ==== Sys2Proof/Laws/Ops.lean ====
section
/-! SUPPORT. What each shared operation can do, said once. -/
namespace Sys2Proof.Machine

/-- A reading operation answers a next state exactly when the data registers are written and what follows does. -/
theorem readData_next {s t : State} {go : Result} :
    s.readData go = .next t ↔ s.written = true ∧ go = .next t := by
  unfold State.readData
  by_cases h : s.written <;> simp [h]

theorem readData_of_written {s : State} (h : s.written = true) (go : Result) : s.readData go = go := if_pos h

theorem readData_of_unwritten {s : State} (h : s.written = false) (go : Result) :
    s.readData go = .fault .unwrittenRead := by
  simp [State.readData, h]

/-- Below 12, the symbol of an index exists. -/
theorem packSym_of_le (il : IlWord) {i : BitVec 4} (h : i.toNat ≤ 11) :
    packSym il i = some (BitVec.ofNat 5 (packFrom il i.toNat 5)) := by
  rw [packSym, if_neg (by unfold Config.maxPrec; omega)]
  rfl

theorem packSym_of_gt (il : IlWord) {i : BitVec 4} (h : 11 < i.toNat) : packSym il i = none := by
  rw [packSym, if_pos (by unfold Config.maxPrec; omega)]

/-- What is done with a symbol answers a next state exactly when the symbol exists and what follows does. -/
theorem withSym_next {s t : State} {go : Symbol → Result} :
    s.withSym go = .next t ↔ ∃ v, s.symNet = some v ∧ go v = .next t := by
  unfold State.withSym
  cases h : s.symNet <;> simp

theorem withSym_of_le {s : State} (h : s.i.toNat ≤ 11) (go : Symbol → Result) :
    s.withSym go = go (BitVec.ofNat 5 (packFrom s.ilNet s.i.toNat 5)) := by
  simp [State.withSym, State.symNet, packSym_of_le _ h]

theorem withSym_of_gt {s : State} (h : 11 < s.i.toNat) (go : Symbol → Result) :
    s.withSym go = .fault .packPastEnd := by
  simp [State.withSym, State.symNet, packSym_of_gt _ h]

/-! ### The payload -/

/-- With `rsp_valid` = 0 the payload has no value. -/
theorem payload_of_not_valid {s : State} (h : rspValid s.st s.pins.rst = false) : s.payload = none := by
  simp [State.payload, h]

/-- In EMIT with `rst` = 0 and the data registers written, the payload is the character beat, if it has a symbol. -/
theorem payload_emit {s : State} (h : s.st = EMIT) (hr : s.pins.rst = false) (hw : s.written = true) :
    s.payload = s.symNet.map (fun v => charBeat v s.i s.prec) := by
  simp [State.payload, rspValid, h, hr, hw]

/-- In ERROR with `rst` = 0 the payload is the error beat. -/
theorem payload_error {s : State} (h : s.st = ERROR) (hr : s.pins.rst = false) : s.payload = some errorBeat := by
  simp [State.payload, rspValid, h, hr]

/-! ### The counters -/

/-- The sequencer's part of BISECT_STEP, by `K`: at 31 the phase ends, before it `K` goes up. -/
theorem countStep_last {s : State} (h : s.k.toNat = 31) : s.countStep = { s with k := 0, i := 0, st := EMIT } := by
  simp [State.countStep, kLast, Config.steps, h, State.setK, State.setI, State.setSt]

theorem countStep_more {s : State} (h : s.k.toNat ≠ 31) : s.countStep = { s with k := s.k + 1 } := by
  simp [State.countStep, kLast, Config.steps, h, State.setK]

/-- The sequencer's part of EMIT_CHAR. -/
theorem countChar_last {s : State} (h : s.i.toNat + 1 = s.prec.toNat) :
    s.countChar = { s with i := 0, st := IDLE } := by
  simp [State.countChar, iLast, h, State.setI, State.setSt]

theorem countChar_more {s : State} (h : s.i.toNat + 1 ≠ s.prec.toNat) : s.countChar = { s with i := s.i + 1 } := by
  simp [State.countChar, iLast, h, State.setI]

/-- `prec_ok` holds for the integers 1 to 12 and for no other. -/
theorem precOk_iff (p : BitVec 32) : precOk p = true ↔ 1 ≤ p.toInt ∧ p.toInt ≤ 12 := by
  rw [precOk, Bool.and_eq_true, decide_eq_true_iff, decide_eq_true_iff]
  rfl

/-- For an accepted precision the field `PREC` takes is the precision. -/
theorem precField_of_ok {p : BitVec 32} (h : precOk p = true) :
    (precField p).toNat = p.toNat ∧ 1 ≤ p.toNat ∧ p.toNat ≤ 12 := by
  rw [precOk_iff, BitVec.toInt_eq_toNat_cond] at h
  have hp : p.toNat < 2 ^ 32 := p.isLt
  have hf : (precField p).toNat = p.toNat % 2 ^ 4 := by
    rw [precField, BitVec.extractLsb'_toNat, Nat.shiftRight_zero]
  split at h <;> omega

end Sys2Proof.Machine
end

