-- ==== Sys2Proof/Laws/PerInstr.lean ====
section
/-! SUPPORT. What is said of every instruction as syntax, one lemma per constructor. -/

/-- The word of an instruction, as a number, is well formed, and the decoder reads the instruction back from it. -/
def Sys2Proof.Laws.EncodedWord.Statement (i : Sys2Proof.Instr) : Prop :=
  Sys2Proof.rawWordOk (Sys2Proof.encode i).raw.1 (Sys2Proof.encode i).raw.2 = true ∧
    Sys2Proof.decode (Sys2Proof.encode i) = some i

namespace Sys2Proof.Laws.EncodedWord

theorem encode (lat lon : F64) (prec : BitVec 32) : Statement (.encode lat lon prec) := by
  refine ⟨?_, ?_⟩
  · simp only [Sys2Proof.encode, FetchWord.raw, rawWordOk, rawWidthOk, rawUsedBits]
    simpa using (reqWord lat lon prec).isLt
  · simp only [Sys2Proof.encode, decode, decodeReq, reqLat_reqWord, reqLon_reqWord, reqPrec_reqWord]

theorem reset : Statement .reset := by unfold Statement; decide
theorem idleWait : Statement .idleWait := by unfold Statement; decide
theorem reject : Statement .reject := by unfold Statement; decide
theorem init : Statement .init := by unfold Statement; decide
theorem bisectStep : Statement .bisectStep := by unfold Statement; decide
theorem emitHold : Statement .emitHold := by unfold Statement; decide
theorem emitChar : Statement .emitChar := by unfold Statement; decide
theorem errHold : Statement .errHold := by unfold Statement; decide
theorem errRsp : Statement .errRsp := by unfold Statement; decide
theorem reservedSt : Statement .reservedSt := by unfold Statement; decide
theorem interleave : Statement .interleave := by unfold Statement; decide
theorem packSym : Statement .packSym := by unfold Statement; decide
theorem lutChar : Statement .lutChar := by unfold Statement; decide

end Sys2Proof.Laws.EncodedWord
end

