-- ==== Sys2Proof/Laws/Step.lean ====
section
/-! SUPPORT. What a step reads and which row it performs. -/
namespace Sys2Proof.Machine

/-- The row of the control map that a state and its pins select (30_encoding.md R84), by its fields. -/
def selected (s : State) : Instr :=
  if s.pins.rst then .reset
  else if s.st = IDLE then
    if s.pins.reqValid then (if precOk s.pins.reqPrec then .init else .reject) else .idleWait
  else if s.st = BISECT then .bisectStep
  else if s.st = EMIT then (if s.pins.rspReady then .emitChar else .emitHold)
  else if s.st = ERROR then (if s.pins.rspReady then .errRsp else .errHold)
  else .reservedSt

theorem decodeCtl_controlVector (s : State) : decodeCtl (controlVector s) = some (selected s) := by
  unfold controlVector selected
  generalize s.pins.rst = a
  generalize s.st = b
  generalize s.pins.reqValid = c
  generalize precOk s.pins.reqPrec = d
  generalize kLast s.k = e
  generalize s.pins.rspReady = f
  generalize (s.written && iLast s.i s.prec) = g
  revert a b c d e f g
  decide +kernel

/-! ### Moves -/

theorem present_withMove_edge (s : State) (p : Pins) : present (s.withMove (.edge p)) = s.drive p s.bench := rfl

theorem fetchWord_withMove_edge (s : State) (p : Pins) :
    fetchWord (s.withMove (.edge p)) = .ctl (controlVector (s.drive p s.bench)) := rfl

/-- An edge performs the row its pins select. -/
theorem edge_eq (p : Pins) (s : State) : edge p s = exec (selected (s.drive p s.bench)) (s.drive p s.bench) := by
  rw [edge, step, fetchWord_withMove_edge, present_withMove_edge, decode, decodeCtl_controlVector]

/-- The row an edge selects, by the driven pins and the registers before the edge. -/
theorem selected_drive (s : State) (p : Pins) (b : Bench) :
    selected (s.drive p b) =
      if p.rst then .reset
      else if s.st = IDLE then (if p.reqValid then (if precOk p.reqPrec then .init else .reject) else .idleWait)
      else if s.st = BISECT then .bisectStep
      else if s.st = EMIT then (if p.rspReady then .emitChar else .emitHold)
      else if s.st = ERROR then (if p.rspReady then .errRsp else .errHold)
      else .reservedSt := rfl

/-- A step is an edge (of the script or of the request program), a whole command, or the observation that the script holds
first. -/
theorem step_cases (s : State) :
    (∃ p b, step s = exec (selected (s.drive p b)) (s.drive p b)) ∨
    (∃ w b, step s = exec (decodeReq w) (s.setBench b)) ∨
    (∃ f rest b, s.bench.script = .observe f :: rest ∧ step s = exec (decodeComb f) (s.setBench b)) := by
  unfold step fetchWord present
  rcases h : s.bench.script with _ | ⟨_ | _ | _, rest⟩
  · exact .inl ⟨s.bench.pins, s.bench.advance (requestHandshake s.st s.bench.pins),
      by simp only [decode, decodeCtl_controlVector]⟩
  · rename_i p
    exact .inl ⟨p, { s.bench with script := rest }, by simp only [decode, decodeCtl_controlVector]⟩
  · exact .inr (.inl ⟨_, _, rfl⟩)
  · exact .inr (.inr ⟨_, rest, _, rfl, rfl⟩)

/-! ### Placing a word -/

/-- A value chosen to show a bit, unless the value at hand shows it already, shows it. -/
theorem shows_bit {α : Type} (f : α → Bool) (b : Bool) (x y n : α) (hy : f y = true) (hn : f n = false) :
    f (if f x = b then x else if b then y else n) = b := by
  by_cases h : f x = b
  · rw [if_pos h, h]
  · rw [if_neg h]
    cases b
    · exact hn
    · exact hy

theorem shows_last (b : Bool) (i p : BitVec 4) :
    iLast (if iLast i p = b then i else 0) (if iLast i p = b then p else if b then 1 else 2) = b := by
  by_cases h : iLast i p = b
  · rw [if_pos h, if_pos h, h]
  · rw [if_neg h, if_neg h]
    cases b <;> rfl

/-- A control vector is assembled from its fields. -/
theorem controlVector_fields (cv : ControlVector) :
    BitVec.ofBool (cv.getLsbD 8) ++ cv.extractLsb' 5 3 ++ BitVec.ofBool (cv.getLsbD 4) ++ BitVec.ofBool (cv.getLsbD 3)
      ++ BitVec.ofBool (cv.getLsbD 2) ++ BitVec.ofBool (cv.getLsbD 1) ++ BitVec.ofBool (cv.getLsbD 0) = cv := by
  revert cv
  decide +kernel

/-- A placed word is the next one read. -/
theorem fetchWord_loadWord (s : State) (word : FetchWord) : fetchWord (s.loadWord word) = word := by
  cases word with
  | req w => rfl
  | comb f => rfl
  | ctl cv =>
    have hp : precOk (present (s.loadWord (.ctl cv))).pins.reqPrec = cv.getLsbD 3 :=
      shows_bit precOk (cv.getLsbD 3) s.pins.reqPrec 1 0 rfl rfl
    have hk : kLast (present (s.loadWord (.ctl cv))).k = cv.getLsbD 2 := shows_bit kLast (cv.getLsbD 2) s.k 31 0 rfl rfl
    have hi : iLast (present (s.loadWord (.ctl cv))).i (present (s.loadWord (.ctl cv))).prec = cv.getLsbD 0 :=
      shows_last (cv.getLsbD 0) s.i s.prec
    have hw : ((present (s.loadWord (.ctl cv))).written && cv.getLsbD 0) = cv.getLsbD 0 := by
      show ((s.written || cv.extractLsb' 5 3 == BISECT || cv.extractLsb' 5 3 == EMIT || cv.getLsbD 0)
        && cv.getLsbD 0) = cv.getLsbD 0
      cases cv.getLsbD 0 <;> simp
    refine congrArg FetchWord.ctl (Eq.trans ?_ (controlVector_fields cv))
    show BitVec.ofBool (cv.getLsbD 8) ++ cv.extractLsb' 5 3 ++ BitVec.ofBool (cv.getLsbD 4) ++ BitVec.ofBool (precOk _)
      ++ BitVec.ofBool (kLast _) ++ BitVec.ofBool (cv.getLsbD 1) ++ BitVec.ofBool (_ && iLast _ _) = _
    rw [hp, hk, hi, hw]

end Sys2Proof.Machine
end

