-- ==== Sys2Proof/Laws/Units.lean ====
section
/-! SUPPORT. The loops of the combinational units: what each has computed after some of its steps. -/
namespace Sys2Proof.Machine

/-! ### The interleaver's loop -/

theorem bitAt_getLsbD (b : Bool) (k n : Nat) (hn : n < 64) :
    ((BitVec.ofBool b).setWidth 64 <<< k).getLsbD n = (b && decide (n = k)) := by
  rw [BitVec.getLsbD_shiftLeft, BitVec.getLsbD_setWidth]
  rcases Nat.lt_trichotomy n k with h | h | h
  · simp [h, Nat.ne_of_lt h]
  · subst h
    simp [hn]
  · have h2 : n - k ≠ 0 := by omega
    have h3 : n ≠ k := by omega
    simp [h3, BitVec.getLsbD_ofBool, h2]

/-- After `m` steps of the loop the top `2m` bits are placed and the others are 0. -/
theorem interleaveFrom_getLsbD (a o : DirWord) (m : Nat) (hm : m ≤ 32) (n : Nat) (hn : n < 64) :
    (interleaveFrom a o m).getLsbD n =
      (decide (64 - 2 * m ≤ n) && if n % 2 = 1 then o.getLsbD (n / 2) else a.getLsbD (n / 2)) := by
  induction m with
  | zero =>
    have : ¬ 64 ≤ n := by omega
    simp [interleaveFrom, this]
  | succ m ih =>
    rw [interleaveFrom, BitVec.getLsbD_or, BitVec.getLsbD_or, ih (by omega), bitAt_getLsbD _ _ _ hn, bitAt_getLsbD _ _ _ hn]
    rcases Nat.lt_or_ge n (64 - 2 * (m + 1)) with h | h
    · rw [decide_eq_false (show ¬ 64 - 2 * m ≤ n by omega), decide_eq_false (show ¬ 64 - 2 * (m + 1) ≤ n by omega),
        decide_eq_false (show n ≠ 63 - 2 * m by omega), decide_eq_false (show n ≠ 63 - (2 * m + 1) by omega)]
      simp only [Bool.false_and, Bool.and_false, Bool.or_false]
    rw [decide_eq_true h, Bool.true_and]
    rcases Nat.lt_or_ge n (64 - 2 * m) with h' | h'
    · rw [decide_eq_false (show ¬ 64 - 2 * m ≤ n by omega), Bool.false_and, Bool.false_or]
      rcases Nat.lt_or_ge n (63 - 2 * m) with h5 | h5
      · rw [decide_eq_false (show n ≠ 63 - 2 * m by omega), decide_eq_true (show n = 63 - (2 * m + 1) by omega),
          if_neg (show n % 2 ≠ 1 by omega), show n / 2 = 31 - m by omega, Bool.and_false, Bool.false_or, Bool.and_true]
      · rw [decide_eq_true (show n = 63 - 2 * m by omega), decide_eq_false (show n ≠ 63 - (2 * m + 1) by omega),
          if_pos (show n % 2 = 1 by omega), show n / 2 = 31 - m by omega, Bool.and_false, Bool.or_false, Bool.and_true]
    · rw [decide_eq_true h', decide_eq_false (show n ≠ 63 - 2 * m by omega),
        decide_eq_false (show n ≠ 63 - (2 * m + 1) by omega)]
      simp only [Bool.true_and, Bool.and_false, Bool.or_false]

/-! ### The packer's loop -/

/-- After `t` steps of the loop the value is the top `t` bits of the slice that starts at sequence position `5i`. -/
theorem packFrom_eq (il : IlWord) (i t : Nat) (h : 5 * i + t ≤ 64) :
    packFrom il i t = il.toNat / 2 ^ (64 - (5 * i + t)) % 2 ^ t := by
  induction t with
  | zero => simp [packFrom, Nat.mod_one]
  | succ t ih =>
    have hb : (il.getLsbD (63 - (5 * i + t))).toNat = il.toNat / 2 ^ (63 - (5 * i + t)) % 2 := by
      rw [BitVec.getLsbD, Nat.testBit_eq_decide_div_mod_eq]
      rcases Nat.mod_two_eq_zero_or_one (il.toNat / 2 ^ (63 - (5 * i + t))) with h | h <;> simp [h]
    rw [packFrom, ih (by omega), hb, show 64 - (5 * i + (t + 1)) = 63 - (5 * i + t) by omega,
      show 64 - (5 * i + t) = 63 - (5 * i + t) + 1 by omega, Nat.pow_succ 2 (63 - _), ← Nat.div_div_eq_div_mul,
      Nat.pow_succ 2 t, Nat.mul_comm (2 ^ t) 2, Nat.mod_mul]
    omega

/-- The whole loop is the slice `IL[63-5i : 59-5i]` (42_packer.md R151). -/
theorem packFrom_slice (il : IlWord) (i : Nat) (h : i ≤ 11) :
    BitVec.ofNat 5 (packFrom il i 5) = il.extractLsb' (59 - 5 * i) 5 := by
  apply BitVec.eq_of_toNat_eq
  rw [BitVec.toNat_ofNat, packFrom_eq il i 5 (by omega), BitVec.extractLsb'_toNat, Nat.shiftRight_eq_div_pow, Nat.mod_mod,
    show 64 - (5 * i + 5) = 59 - 5 * i by omega]

end Sys2Proof.Machine
end

