-- ==== Sys2Proof/Tests/Slice0.lean ====
section
/-! SUPPORT. Tests. Expected values are taken from the rules and vectors of spec/, named in each docstring; a witness
theorem shows that the hypotheses of an obligation can be met. -/
namespace Sys2Proof.Tests

open Sys2Proof.Machine

/-! ### Helpers -/

/-- The state answered, if it is a next state. -/
def answer : Result → Option State
  | .next t => some t
  | .fault _ => none
  | .refused _ => none

/-- Whether the answer is this fault. -/
def faults (f : Fault) : Result → Bool
  | .next _ => false
  | .fault g => decide (f = g)
  | .refused _ => false

/-- The Beijing request of 95_test_vectors.md V1, in a phase: its direction words and precision. -/
def beijing (st : BitVec 3) (k : BitVec 5) (i : BitVec 4) : State :=
  { State.reset with
    st := st, k := k, i := i, prec := 6, written := true,
    lat := { Lane.load 0x4043F3BCD35A8588 latBracket with dirs := 0xB8C0AD03 },
    lon := { Lane.load 0x405D1A12D77318FC lonBracket with dirs := 0xD2C75209 } }

/-- The state at the start of the Beijing request's bisection. -/
def started : State :=
  { State.reset with
    st := BISECT, prec := 6, written := true,
    lat := Lane.load 0x4043F3BCD35A8588 latBracket, lon := Lane.load 0x405D1A12D77318FC lonBracket }

/-- The ports with a request of that precision presented. -/
def asking (prec : BitVec 32) (ready : Bool) : Pins := requestPins 0x4043F3BCD35A8588 0x405D1A12D77318FC prec ready

/-- The ports with no request. -/
def quiet (rst ready : Bool) : Pins := { Pins.low with rst := rst, rspReady := ready }

/-! ### Well-formedness: each check refuses an ill-formed word -/

/-- No row's word is 7 bits wide. -/
theorem test_wf_refuses_unknown_width : rawWordOk 7 0 = false ∧ decodeTableWord 7 0 = none := by decide
/-- A control vector has 9 bits (R82). -/
theorem test_wf_refuses_tenth_control_bit : rawWordOk 16 0x200 = false ∧ decodeTableWord 16 0x200 = none := by decide
/-- A symbol has 5 bits (R152). -/
theorem test_wf_refuses_sixth_symbol_bit : rawWordOk 8 32 = false ∧ decodeTableWord 8 32 = none := by decide
/-- A request word has 160 bits (R81). -/
theorem test_wf_refuses_bit_160 : rawWordOk 160 (2 ^ 160) = false ∧ decodeTableWord 160 (2 ^ 160) = none := by
  decide +kernel
theorem test_wf_accepts : rawWordOk 16 0x1FF = true ∧ rawWordOk 8 31 = true ∧ Instr.wellFormed .reset = true := by decide

/-! ### Decoding: one word for each constructor, written out from 30_encoding.md R81, R84, R86 -/

theorem test_decode_encode :
    decodeTableWord 160 0x4043F3BCD35A8588405D1A12D77318FC00000006 =
      some (.encode 0x4043F3BCD35A8588 0x405D1A12D77318FC 6) := by decide +kernel
theorem test_decode_reset : decodeTableWord 16 0b1_101_1_0_1_0_1 = some .reset := by decide
theorem test_decode_idle_wait : decodeTableWord 16 0b0_000_0_1_1_1_1 = some .idleWait := by decide
theorem test_decode_reject : decodeTableWord 16 0b0_000_1_0_1_1_1 = some .reject := by decide
theorem test_decode_init : decodeTableWord 16 0b0_000_1_1_0_1_0 = some .init := by decide
theorem test_decode_bisect_step : decodeTableWord 16 0b0_001_1_1_1_1_1 = some .bisectStep := by decide
theorem test_decode_emit_hold : decodeTableWord 16 0b0_010_1_1_1_0_1 = some .emitHold := by decide
theorem test_decode_emit_char : decodeTableWord 16 0b0_010_0_0_0_1_0 = some .emitChar := by decide
theorem test_decode_err_hold : decodeTableWord 16 0b0_011_0_1_0_0_1 = some .errHold := by decide
theorem test_decode_err_rsp : decodeTableWord 16 0b0_011_1_0_1_1_0 = some .errRsp := by decide
theorem test_decode_reserved_st : decodeTableWord 16 0b0_111_0_0_0_1_0 = some .reservedSt := by decide
theorem test_decode_comb :
    decode (.comb .interleave) = some .interleave ∧ decode (.comb .packSym) = some .packSym ∧
      decode (.comb .lutChar) = some .lutChar := by decide

/-- `withFetchWord` makes the next step run the word: here INIT, from reset. -/
theorem test_with_fetch_word : fetchWord (State.reset.withFetchWord 16 0b0_000_1_1_0_0_0) = .ctl 0b0_000_1_1_0_0_0 := by
  decide

/-- A placed observation is the next step, with the data registers counted as written (log 6). -/
theorem test_with_fetch_word_comb :
    (answer (step (State.reset.withFetchWord 32 0))).map (fun t => (t.nets.il, t.bench.script)) = some (0, []) := by
  decide +kernel

/-! ### One step of each row -/

/-- 95_test_vectors.md section 1.1, V1: the code is `wx4g0b`, with the direction words of the table. -/
theorem test_encode_v1 :
    (answer (exec (.encode 0x4043F3BCD35A8588 0x405D1A12D77318FC 6) State.reset)).map
        (fun t => (t.beats.map (fun b => b.char.toNat), t.lat.dirs, t.lon.dirs)) =
      some ("wx4g0b".toList.map Char.toNat, 0xB8C0AD03, 0xD2C75209) := by decide +kernel
/-- R170: a precision of 13 gives the one error beat. -/
theorem test_encode_precision_13 :
    (answer (exec (.encode 0 0 13) State.reset)).map State.beats = some [⟨0, 0, 0, true, true, 1⟩] := by decide +kernel
/-- R230: with `ST` = BISECT and `K` = 17, an edge with `rst` = 1 leaves `ST` = IDLE, `K` = 0 and `I` = 0. -/
theorem test_reset :
    (answer (exec .reset (beijing BISECT 17 3))).map (fun t => (t.st, t.k, t.i, t.written)) = some (IDLE, 0, 0, false) := rfl
/-- R173. -/
theorem test_idle_wait : answer (exec .idleWait (beijing IDLE 0 0)) = some (beijing IDLE 0 0) := rfl
/-- R175: `ST` = ERROR. -/
theorem test_reject : (answer (exec .reject (beijing IDLE 0 0))).map State.st = some ERROR := rfl
/-- R174, its example. -/
theorem test_init :
    (answer (exec .init { State.reset with pins := asking 6 false })).map (fun t => (t.st, t.k, t.prec, t.lat, t.lon)) =
      some (BISECT, 0, 6, ⟨0x4043F3BCD35A8588, 0xC056800000000000, 0, 0x4056800000000000, 0⟩,
        ⟨0x405D1A12D77318FC, 0xC066800000000000, 0, 0x4066800000000000, 0⟩) := by decide +kernel
/-- R109, its example: (0, 45, 90) and `LATD` = 1. -/
theorem test_bisect_step :
    (answer (exec .bisectStep started)).map (fun t => (t.lat.lo, t.lat.mid, t.lat.hi, t.lat.dirs, t.k)) =
      some (0, 0x4046800000000000, 0x4056800000000000, 1, 1) := by decide +kernel
/-- R105: the longitude -5e-324 is below +0.0 and emits 0. -/
theorem test_bisect_step_subnormal : (Lane.load 0x8000000000000001 lonBracket).step.dirs = 0 := by decide +kernel
/-- R177. -/
theorem test_emit_hold : answer (exec .emitHold (beijing EMIT 0 2)) = some (beijing EMIT 0 2) := rfl
/-- R178, its example: with `PREC` = 6 and `I` = 5, the beat carries `rsp_last` = 1, and the block returns to IDLE; the
character is the `b` of V1, symbol 10. -/
theorem test_emit_char_last :
    (answer (exec .emitChar (beijing EMIT 0 5))).map (fun t => (t.beats, t.i, t.st)) =
      some ([⟨0x62, 10, 5, true, false, 0⟩], 0, IDLE) := by decide +kernel
/-- V1: the first character is `w`, symbol 28. -/
theorem test_emit_char_first :
    (answer (exec .emitChar (beijing EMIT 0 0))).map (fun t => (t.beats, t.i, t.st)) =
      some ([⟨0x77, 28, 0, false, false, 0⟩], 1, EMIT) := by decide +kernel
/-- R179. -/
theorem test_err_hold : answer (exec .errHold (beijing ERROR 0 0)) = some (beijing ERROR 0 0) := rfl
/-- R180. -/
theorem test_err_rsp :
    (answer (exec .errRsp (beijing ERROR 0 0))).map (fun t => (t.beats, t.st)) =
      some ([⟨0, 0, 0, true, true, 1⟩], IDLE) := by decide
/-- R205. -/
theorem test_reserved_st : faults .reservedState (exec .reservedSt (beijing 0b101 0 0)) = true := by decide
/-- R140, its example. -/
theorem test_interleave :
    (answer (exec .interleave (beijing EMIT 0 0))).map (fun t => t.nets.il) = some 0xE748F02A66590087 := by decide +kernel
/-- R151, its example. -/
theorem test_pack_sym : (answer (exec .packSym (beijing EMIT 0 0))).map (fun t => t.nets.sym) = some 28 := by decide +kernel
/-- R151: index 12 faults. -/
theorem test_pack_sym_past_end : faults .packPastEnd (exec .packSym (beijing EMIT 0 12)) = true := by decide +kernel
/-- R151, its example: `w`. -/
theorem test_lut_char : (answer (exec .lutChar (beijing EMIT 0 0))).map (fun t => t.nets.char) = some 0x77 := by
  decide +kernel

/-! ### Units -/

/-- R142. -/
theorem test_interleave_example : interleave 0xAAAAAAAA 0x55555555 = 0x6666666666666666 := by decide +kernel
/-- 95_test_vectors.md section 2.3, the last row: `BISECT(0.0, -90.0, 0.0, 90.0, 1)`. -/
theorem test_bisect_reference :
    bisect 0 ⟨latMin, 0, latMax⟩ 1 = ([true], ⟨0, 0x4046800000000000, latMax⟩) := by decide +kernel
/-- R36, 93_implementation_defined.md E1: any read of an unwritten register faults. -/
theorem test_unwritten_read : ∀ i ∈ [Instr.bisectStep, .emitChar, .interleave, .packSym, .lutChar],
    faults .unwrittenRead (exec i State.reset) = true := by decide
/-- 70_reset_and_hazards.md R238, 93_implementation_defined.md E3: no payload at a reset edge, where `rsp_valid` = 0. -/
theorem test_no_payload_under_reset :
    { beijing ERROR 0 0 with pins := quiet true false }.payload = none ∧ (beijing ERROR 0 0).payload = some errorBeat := by
  decide
/-- R172: 0, negative values and 13 are refused; 1 and 12 are accepted. -/
theorem test_prec_ok :
    precOk 0 = false ∧ precOk 0xFFFFFFFF = false ∧ precOk 13 = false ∧ precOk 0x80000001 = false ∧ precOk 1 = true ∧
      precOk 12 = true := by decide
/-- R88, R240: a request program's first request, presented at edge 0, is taken there. -/
theorem test_request_program :
    (answer (step { State.reset with bench := { Bench.empty with requests := [0x6] } })).map
      (fun t => (t.st, t.prec, t.bench.requests, t.bench.edge)) = some (BISECT, 6, [], 1) := by decide +kernel

/-! ### Witnesses: the hypotheses of the obligations can be met -/

theorem witness_decode_of_encode : Instr.wellFormed (.encode 1 2 3) = true := rfl
theorem witness_step_performs : decode (fetchWord State.reset) = some .idleWait := by decide
theorem witness_reset_edge : (quiet true true).rst = true ∧ (0x1FF : ControlVector) &&& 0x100 = 0x100 := by decide
theorem witness_row_vectors :
    (0x00F : ControlVector) &&& 0x1F0 = 0x000 ∧ (0x05D : ControlVector) &&& 0x1E2 = 0x040 ∧
      (0x07D : ControlVector) &&& 0x1E2 = 0x060 ∧ (0x01F : ControlVector) &&& 0x1F8 = 0x018 ∧
      (0x017 : ControlVector) &&& 0x1F8 = 0x010 ∧ (0x03F : ControlVector) &&& 0x1E0 = 0x020 ∧
      (0x05F : ControlVector) &&& 0x1E2 = 0x042 ∧ (0x07F : ControlVector) &&& 0x1E2 = 0x062 := by decide
/-- Both ends of the accepted range, and the values next to them. -/
theorem witness_precision_check :
    State.reset.st = IDLE ∧ (asking 1 false).rst = false ∧ (asking 1 false).reqValid = true ∧
      (1 : ℤ) ≤ (asking 1 false).reqPrec.toInt ∧ (asking 12 false).reqPrec.toInt ≤ 12 ∧
      (asking 0 false).reqPrec.toInt < 1 ∧ 12 < (asking 13 false).reqPrec.toInt ∧
      (asking 0x80000000 false).reqPrec.toInt < 1 ∧ (quiet false true).reqValid = false := by decide
/-- V1's first step takes the upper half in the latitude lane; a NaN takes the lower half. -/
theorem witness_bisect_step :
    started.written = true ∧ f64Ge started.lat.value started.lat.mid = true ∧ f64Ge 0x7FF8000000000000 started.lat.mid = false ∧
      (beijing BISECT 31 0).k.toNat = 31 ∧ (beijing BISECT 30 0).k.toNat ≠ 31 := by decide +kernel
theorem witness_emit_char : (beijing EMIT 0 11).written = true ∧ (beijing EMIT 0 11).i.toNat ≤ 11 := by decide
theorem witness_reserved_state :
    (beijing 0b100 0 0).st.getLsbD 2 = true ∧ (beijing 0b111 0 0).st.getLsbD 2 = true ∧
      (0x080 : ControlVector).getLsbD 8 = false ∧ (0x080 : ControlVector).getLsbD 7 = true ∧ (beijing ERROR 0 0).st.getLsbD 2 = false := by
  decide
theorem witness_model_faults :
    State.reset.written = false ∧ (beijing EMIT 0 12).written = true ∧ 11 < (beijing EMIT 0 12).i.toNat := by decide
theorem witness_outputs :
    (beijing EMIT 0 11).pins.rst = false ∧ State.reset.outputs.rspValid = false ∧ (beijing EMIT 0 11).outputs.rspValid = true ∧
      (beijing EMIT 0 11).st = EMIT ∧ (beijing EMIT 0 11).written = true ∧ (beijing EMIT 0 11).i.toNat ≤ 11 ∧
      (beijing ERROR 0 0).st = ERROR ∧ State.reset.st = IDLE ∧ started.st = BISECT := by decide
theorem witness_held_beat : ∀ p ∈ [quiet false false, asking 6 false], p.rst = false ∧ p.rspReady = false := by decide
/-- In EMIT a beat is taken while the request ports differ; in IDLE no request is presented. -/
theorem witness_request_ports :
    requestHandshake EMIT (asking 6 true) = false ∧ requestHandshake EMIT (quiet false true) = false ∧
      requestHandshake IDLE (quiet false true) = false ∧ (asking 6 true).rst = (quiet false true).rst ∧
      (answer (edge (asking 6 true) (beijing EMIT 0 0))).isSome = true := by decide +kernel
theorem witness_request_program :
    State.reset.bench.script = [] ∧ (answer (step State.reset)).isSome = true ∧
      State.reset.bench.edge ∉ State.reset.bench.resets ∧ started.st ≠ IDLE ∧ (0 : ℕ) ∈ ([0] : List ℕ) := by decide +kernel
theorem witness_only_naming_rows : ∀ i ∈ [Instr.reset, .init, .bisectStep, .emitChar, .errRsp, .interleave, .reject],
    (answer (exec i (beijing EMIT 0 0))).isSome = true := by decide +kernel
/-- Each row of R104's table. -/
theorem witness_comparison :
    f64IsNaN 0xFFF0000000000001 = true ∧ f64IsZero 0x8000000000000000 = true ∧ f64IsZero 0 = true ∧
      f64IsInf 0x7FF0000000000000 = true ∧ f64Sign 0x7FF0000000000000 = false ∧ f64IsInf 0xFFF0000000000000 = true ∧
      f64Sign 0xFFF0000000000000 = true ∧ f64IsFinite 0x7FEFFFFFFFFFFFFF = true ∧ f64IsFinite 1 = true ∧
      f64IsNaN 1 = false := by decide
theorem overflowBound_gt : (180 : ℚ) < overflowBound := by
  have h : (1 : ℚ) ≤ 2 ^ 970 := one_le_pow₀ (by norm_num)
  rw [overflowBound, show 1024 = 970 + 54 from rfl, pow_add]
  generalize (2 : ℚ) ^ 970 = x at *
  norm_num
  linarith
theorem witness_addition :
    f64IsFinite latMax = true ∧ f64IsFinite latMin = true ∧ |f64Value latMax + f64Value latMin| < overflowBound := by
  refine ⟨by decide, by decide, ?_⟩
  have := overflowBound_gt
  rw [f64Value_latMax, f64Value_latMin]
  norm_num
  linarith
theorem witness_division :
    f64IsFinite lonMax = true ∧ f64IsFinite latMax = true ∧ f64Value latMax ≠ 0 ∧
      |f64Value lonMax / f64Value latMax| < overflowBound := by
  have := overflowBound_gt
  refine ⟨by decide, by decide, by rw [f64Value_latMax]; norm_num, ?_⟩
  rw [f64Value_latMax, f64Value_lonMax]
  norm_num
  linarith
/-- 95_test_vectors.md section 1.2: a latitude of exactly 0.0, and -0.0. -/
theorem witness_tie :
    let l : Lane := { value := 0x8000000000000000, lo := latMin, mid := 0, hi := latMax, dirs := 0 }
    f64IsFinite l.value = true ∧ f64IsFinite l.mid = true ∧ f64Value l.value = f64Value l.mid := by
  refine ⟨by decide, by decide, ?_⟩
  rw [f64Value_eq_scaled, f64Value_eq_scaled, show f64Scaled 0x8000000000000000 = f64Scaled 0 by decide]
theorem witness_lanes : (answer (exec .bisectStep started)).isSome = true := by decide +kernel
theorem witness_out_of_range :
    90 ≤ f64Value latMax ∧ f64Value lonMin < -90 ∧ 180 ≤ f64Value lonMax ∧ f64Value 0xC076800000000000 < -180 ∧
      f64IsFinite 0xC076800000000000 = true := by
  have h : f64Value 0xC076800000000000 = ((-360 : ℤ) : ℚ) := f64Value_of_scaled (by decide +kernel)
  rw [f64Value_latMax, f64Value_lonMin, f64Value_lonMax, h]
  norm_num
  decide
/-- The state at the start of a request keeps the bisector's invariant, with the data registers written. -/
theorem witness_bracket_inv : started.BracketInv ∧ started.written = true := by
  have hm : started.stepsMade = 0 := by decide
  have h1 := load_lat_onGrid 0x4043F3BCD35A8588
  have h2 := load_lon_onGrid 0x405D1A12D77318FC
  rw [Nat.cast_ofNat] at h1 h2
  refine ⟨fun _ => ?_, rfl⟩
  rw [hm]
  exact ⟨h1, h2⟩
/-- The step from there, and an INIT from reset, answer a next state with the data registers written. -/
theorem witness_brackets_stay :
    (answer (step started)).map State.written = some true ∧ State.reset.ControlInv ∧ State.reset.BracketInv ∧
      (answer (edge (asking 6 false) State.reset)).map State.written = some true := by
  refine ⟨by decide +kernel, by unfold State.ControlInv; decide, fun h => absurd h (by decide), by decide +kernel⟩
theorem witness_control_inv : started.ControlInv ∧ (beijing EMIT 0 5).ControlInv ∧ (beijing ERROR 0 0).ControlInv := by
  unfold State.ControlInv
  decide
/-- A word and the same word with its two finest bits changed. -/
theorem witness_finest_bits : ∀ n, n < 32 → 2 ≤ n → (0xB8C0AD03 : DirWord).getLsbD n = (0xB8C0AD00 : DirWord).getLsbD n := by
  decide
theorem witness_encode :
    State.reset.st = IDLE ∧ (1 : ℤ) ≤ (1 : BitVec 32).toInt ∧ (12 : BitVec 32).toInt ≤ 12 ∧ (0 : BitVec 32).toInt < 1 ∧
      12 < (13 : BitVec 32).toInt := by decide
/-- 44 edges for a precision of 12, and one for an invalid precision. -/
theorem witness_edges :
    (List.replicate 44 (quiet false true)).length = 32 + (12 : BitVec 32).toNat ∧
      (∀ p ∈ List.replicate 44 (quiet false true), p.rst = false ∧ p.rspReady = true) ∧ [quiet false true].length = 1 := by
  decide
/-- An edge that takes a beat, from a state that keeps the sequencer's invariant. -/
theorem witness_no_beat_lost :
    (beijing EMIT 0 4).ControlInv ∧ (quiet false true).rst = false ∧
      ¬((beijing EMIT 0 4).st = IDLE ∧ (quiet false true).reqValid = true) ∧
      (answer (edge (quiet false true) (beijing EMIT 0 4))).isSome = true := by
  unfold State.ControlInv
  decide +kernel
/-- One edge is left before the last beat of the Beijing request. -/
theorem witness_schedule :
    (beijing EMIT 0 5).edgesLeft = [quiet false true].length ∧ (answer (runEdges [] (beijing EMIT 0 5))).isSome = true := by
  decide +kernel
theorem witness_response :
    (response 0 0 1)[0]?.isSome = true ∧ ∃ b ∈ response 0 0 1, b.err = false := by decide +kernel
theorem witness_comb_rows : (beijing EMIT 0 11).written = true ∧ State.reset.written = false ∧ (beijing EMIT 0 11).i.toNat ≤ 11 ∧ 11 < (beijing EMIT 0 15).i.toNat := by decide
theorem witness_shorter_code : (1 : ℤ) ≤ (11 : BitVec 32).toInt ∧ (11 : BitVec 32).toInt ≤ 11 := by decide
theorem witness_beats_inv :
    ({ State.reset with beats := [errorBeat, charBeat 28 11 12] } : State).BeatsInv ∧
      (answer (step State.reset)).isSome = true := by
  unfold State.BeatsInv
  decide +kernel

end Sys2Proof.Tests
end

section
/-! PROOFS. The format of request words, and the map of control vectors (30_encoding.md R81, R84, R85). -/

namespace Sys2Proof

/-! ### The bits of a request word's fields (R81) -/

theorem reqLat_getLsbD (w : RequestWord) {n : Nat} (hn : n < 64) : (reqLat w).getLsbD n = w.getLsbD (96 + n) := by
  simp [reqLat, hn]

theorem reqLon_getLsbD (w : RequestWord) {n : Nat} (hn : n < 64) : (reqLon w).getLsbD n = w.getLsbD (32 + n) := by
  simp [reqLon, hn]

theorem reqPrec_getLsbD (w : RequestWord) {n : Nat} (hn : n < 32) : (reqPrec w).getLsbD n = w.getLsbD n := by
  simp [reqPrec, hn]

@[simp] theorem encode_decodeReq (w : RequestWord) : encode (decodeReq w) = .req w :=
  congrArg FetchWord.req (reqWord_fields w)

/-! ### The rows of the control map (R84) -/

@[simp] theorem CtlRow.hits_iff {r : CtlRow} {cv : ControlVector} : r.hits cv = true ↔ cv &&& r.mask = r.pattern :=
  beq_iff_eq

theorem ctlRows_instr_inj : ∀ r ∈ ctlRows, ∀ r' ∈ ctlRows, r.instr = r'.instr → r = r' := by decide

/-- Two rows of the map ask for different values of a bit that both masks hold. -/
theorem ctlRows_clash : ∀ r ∈ ctlRows, ∀ r' ∈ ctlRows,
    r.pattern &&& r'.mask = r'.pattern &&& r.mask → r = r' := by decide

theorem ctlRows_disjoint {r r' : CtlRow} {cv : ControlVector} (hr : r ∈ ctlRows) (hr' : r' ∈ ctlRows)
    (h : r.hits cv = true) (h' : r'.hits cv = true) : r = r' := by
  apply ctlRows_clash r hr r' hr'
  rw [← CtlRow.hits_iff.mp h, ← CtlRow.hits_iff.mp h', BitVec.and_assoc, BitVec.and_assoc, BitVec.and_comm r.mask]

/-- The row a control vector decodes to is a row of the map that hits it. -/
theorem exists_hit_of_decodeCtl {cv : ControlVector} {i : Instr} (h : decodeCtl cv = some i) :
    ∃ r ∈ ctlRows, r.hits cv = true ∧ r.instr = i := by
  obtain ⟨r, hfind, hinstr⟩ := Option.map_eq_some_iff.mp h
  have hhit := List.find?_some hfind
  exact ⟨r, List.mem_of_find?_eq_some hfind, hhit, hinstr⟩

/-- The rows cover the vectors: each vector is the control vector of a state, whose row the decoder selects. -/
theorem decodeCtl_ne_none (cv : ControlVector) : decodeCtl cv ≠ none := by
  have hcv : Machine.controlVector (Machine.present (Machine.State.reset.loadWord (.ctl cv))) = cv :=
    FetchWord.ctl.inj (Machine.fetchWord_loadWord Machine.State.reset (.ctl cv))
  rw [← hcv, Machine.decodeCtl_controlVector]
  exact Option.some_ne_none _

theorem decodeCtl_eq_some_iff {r : CtlRow} (hr : r ∈ ctlRows) (cv : ControlVector) :
    decodeCtl cv = some r.instr ↔ cv &&& r.mask = r.pattern := by
  rw [← CtlRow.hits_iff]
  constructor
  · intro h
    obtain ⟨r', hr', hhit, hinstr⟩ := exists_hit_of_decodeCtl h
    exact ctlRows_instr_inj r' hr' r hr hinstr ▸ hhit
  · intro h
    obtain ⟨i, hi⟩ := Option.ne_none_iff_exists'.mp (decodeCtl_ne_none cv)
    obtain ⟨r', hr', hhit, hinstr⟩ := exists_hit_of_decodeCtl hi
    rw [hi, ← hinstr, ctlRows_disjoint hr' hr hhit h]

/-! ### The obligations -/

/-- Settles O2: the ten rows clash pairwise in a masked bit and cover all vectors, so the decoder's first hit is the
only one. -/
theorem controlMapRowsPartitionTheVectors : Obligations.ControlMapRowsPartitionTheVectors := by
  intro cv
  have rows : ctlRows.Forall fun r => decodeCtl cv = some r.instr ↔ cv &&& r.mask = r.pattern :=
    List.forall_iff_forall_mem.mpr fun _ hr => decodeCtl_eq_some_iff hr cv
  exact ⟨decodeCtl_ne_none cv, rows⟩

/-- Settles O4: the ENCODE that a word decodes to has the word's three fields, which together are the word. -/
theorem everyRequestWordIsOneEncode : Obligations.EveryRequestWordIsOneEncode := fun w =>
  ⟨reqLat w, reqLon w, reqPrec w, rfl, fun _ => reqLat_getLsbD w, fun _ => reqLon_getLsbD w, fun _ => reqPrec_getLsbD w,
    encode_decodeReq w⟩

end Sys2Proof
end

section
/-! PROOFS. The comparison, and the bisector's lanes (40_bisector.md R104, R109, R113 to R117). -/

namespace Sys2Proof.Machine

/-! ### The comparison, row by row (R104) -/

theorem f64IsInf_not_nan {a : F64} (h : f64IsInf a = true) : f64IsNaN a = false := by
  simp_all [f64IsInf, f64IsNaN]

theorem f64IsInf_not_zero {a : F64} (h : f64IsInf a = true) : f64IsZero a = false := by
  simp_all [f64IsInf, f64IsZero]

theorem f64IsZero_finite {a : F64} (h : f64IsZero a = true) : f64IsFinite a = true := by
  simp_all [f64IsZero, f64IsFinite]

/-- The two zeros are equal, whatever their signs. -/
theorem f64Ge_zero {a b : F64} (ha : f64IsZero a = true) (hb : f64IsZero b = true) : f64Ge a b = true := by
  rw [f64Ge_finite (f64IsZero_finite ha) (f64IsZero_finite hb), decide_eq_true_iff, f64Value_le_iff, f64IsZero_mag ha,
    f64IsZero_mag hb]

theorem f64Ge_posInf_left {a b : F64} (ha : f64IsInf a = true) (hs : f64Sign a = false) (hb : f64IsNaN b = false) :
    f64Ge a b = true := by
  simp [f64Ge, ha, hs, hb, f64IsInf_not_nan ha]

/-- Only -inf is not above -inf. -/
theorem f64Ge_negInf_left {a b : F64} (ha : f64IsInf a = true) (hs : f64Sign a = true) (hb : f64IsNaN b = false) :
    f64Ge a b = (f64IsInf b && f64Sign b) := by
  simp [f64Ge, ha, hs, hb, f64IsInf_not_nan ha, f64IsInf_not_zero ha]

theorem f64Ge_inf_right {a b : F64} (ha : f64IsFinite a = true) (hb : f64IsInf b = true) : f64Ge a b = f64Sign b := by
  simp [f64Ge, hb, f64IsFinite_not_nan ha, f64IsFinite_not_inf ha, f64IsInf_not_nan hb, f64IsInf_not_zero hb]

/-- Settles O24: each row of the table is the comparison's value on its kinds of operands. -/
theorem comparisonFollowsItsTable : Obligations.ComparisonFollowsItsTable := by
  intro a b
  refine ⟨f64Ge_nan_left b, f64Ge_nan_right a, f64Ge_zero, f64Ge_posInf_left, ?_, ?_, ?_, ?_, ?_⟩
  · intro ha hs hb hsb
    rw [f64Ge_negInf_left ha hs (f64IsInf_not_nan hb), hb, hsb, Bool.and_self]
  · intro ha hs hn hb
    rw [f64Ge_negInf_left ha hs hn, Bool.eq_false_iff, ne_eq, Bool.and_eq_true]
    exact hb
  · intro ha hb hs
    rw [f64Ge_inf_right ha hb, hs]
  · intro ha hb hs
    rw [f64Ge_inf_right ha hb, hs]
  · intro ha hb
    rw [f64Ge_finite ha hb, decide_eq_true_iff]

/-! ### One step of the lanes (R109, R117) -/

theorem execBisectStep_of_written {s : State} (h : s.written = true) :
    exec .bisectStep s = .next (s.setLanes s.lat.step s.lon.step).countStep :=
  readData_of_written h _

theorem Lane.step_dirs_toNat_mod (l : Lane) :
    l.step.dirs.toNat = (2 * l.dirs.toNat + (f64Ge l.value l.mid).toNat) % 2 ^ 32 :=
  shiftIn_toNat _ _

/-- Both branches of R109 on the registers of one lane. -/
theorem Lane.step_registers (l : Lane) :
    l.step.value = l.value ∧
    (f64Ge l.value l.mid = true →
      l.step.lo = l.mid ∧ l.step.hi = l.hi ∧ l.step.dirs.toNat = (2 * l.dirs.toNat + 1) % 2 ^ 32) ∧
    (f64Ge l.value l.mid = false → l.step.lo = l.lo ∧ l.step.hi = l.mid ∧ l.step.dirs.toNat = 2 * l.dirs.toNat % 2 ^ 32) ∧
    l.step.mid = f64Div (f64Add l.step.lo l.step.hi) f64Two := by
  refine ⟨rfl, fun h => ?_, fun h => ?_, rfl⟩
  · refine ⟨?_, ?_, ?_⟩
    · rw [Lane.step_of_ge h]
    · rw [Lane.step_of_ge h]
    · rw [Lane.step_dirs_toNat_mod, h, Bool.toNat_true]
  · refine ⟨?_, ?_, ?_⟩
    · rw [Lane.step_of_lt h]
    · rw [Lane.step_of_lt h]
    · rw [Lane.step_dirs_toNat_mod, h, Bool.toNat_false, Nat.add_zero]

/-- Settles O13: the row of the map is BISECT_STEP's; both lanes step, and `K` tells which way the sequencer goes. -/
theorem bisectStepStepsBothLanes : Obligations.BisectStepStepsBothLanes := by
  refine ⟨fun cv => (decodeCtl_eq_some_iff (r := ⟨.bisectStep, 0x020, 0x1E0⟩) (by decide) cv).mpr, fun s hw => ?_⟩
  rw [execBisectStep_of_written hw]
  by_cases hk : s.k.toNat = 31
  · refine ⟨_, congrArg _ (countStep_last hk), ?_, fun _ => ⟨rfl, rfl, rfl⟩, fun h => absurd hk h,
      rfl, rfl, rfl, rfl, rfl, rfl, rfl⟩
    rintro _ _ (⟨rfl, rfl⟩ | ⟨rfl, rfl⟩)
    · exact Lane.step_registers s.lat
    · exact Lane.step_registers s.lon
  · have hk1 : (s.k + 1).toNat = s.k.toNat + 1 := by bv_omega
    refine ⟨_, congrArg _ (countStep_more hk), ?_, fun h => absurd h hk, fun _ => ⟨hk1, rfl, rfl⟩,
      rfl, rfl, rfl, rfl, rfl, rfl, rfl⟩
    rintro _ _ (⟨rfl, rfl⟩ | ⟨rfl, rfl⟩)
    · exact Lane.step_registers s.lat
    · exact Lane.step_registers s.lon

/-- Settles O27: equal real values compare as greater or equal, so the step takes the upper half. -/
theorem tieTakesTheUpperHalf : Obligations.TieTakesTheUpperHalf := by
  intro l hv hm heq
  have hge : f64Ge l.value l.mid = true := by rw [f64Ge_finite hv hm, decide_eq_true_iff, heq]
  rw [Lane.step_of_ge hge]
  exact ⟨by simp, rfl, rfl⟩

/-! ### The bracket and the comparison

What the comparisons made so far say of the coordinate. The invariant holds for every coordinate and every starting bracket;
that the ends lie on the grid (`Lane.OnGrid`) turns it into the closed form. -/

/-- After `n` steps the coordinate compares as above the low end, unless no step went up, and as below the high end, unless
every step went up. -/
structure Lane.Located (n : Nat) (l : Lane) : Prop where
  dirs_lt : l.dirs.toNat < 2 ^ n
  above_lo : l.dirs.toNat = 0 ∨ f64Ge l.value l.lo = true
  below_hi : l.dirs.toNat + 1 = 2 ^ n ∨ f64Ge l.value l.hi = false

theorem load_located (v : F64) (b : Bracket) : (Lane.load v b).Located 0 :=
  ⟨Nat.one_pos, .inl rfl, .inl rfl⟩

theorem Lane.Located.step {n : Nat} {l : Lane} (hn : n < 32) (h : l.Located n) : l.step.Located (n + 1) := by
  obtain ⟨hd, hlo, hhi⟩ := h
  have hpow : 2 ^ n ≤ 2 ^ 31 := Nat.pow_le_pow_right (by norm_num) (by omega)
  have hdirs := Lane.step_dirs_toNat (lt_of_lt_of_le hd hpow)
  cases hb : f64Ge l.value l.mid with
  | true =>
    rw [hb, Bool.toNat_true] at hdirs
    refine ⟨by omega, .inr ?_, hhi.imp (by omega) ?_⟩
    · rw [Lane.step_of_ge hb, hb]
    · rw [Lane.step_of_ge hb]
      exact id
  | false =>
    rw [hb, Bool.toNat_false] at hdirs
    refine ⟨by omega, hlo.imp (by omega) ?_, .inr ?_⟩
    · rw [Lane.step_of_lt hb]
      exact id
    · rw [Lane.step_of_lt hb, hb]

theorem load_steps_located (v : F64) (b : Bracket) {n : Nat} (hn : n ≤ 32) : ((Lane.load v b).steps n).Located n := by
  induction n with
  | zero => exact load_located v b
  | succ n ih =>
    rw [Lane.steps_succ]
    exact (ih (by omega)).step (by omega)

/-- A coordinate that is not above the low end has seen no step go up. -/
theorem Lane.Located.dirs_eq_zero {n : Nat} {l : Lane} (h : l.Located n) (hlo : f64Ge l.value l.lo = false) :
    l.dirs.toNat = 0 :=
  h.above_lo.resolve_right (by simp [hlo])

/-- A coordinate that is above the high end has seen every step go up. -/
theorem Lane.Located.dirs_eq_ones {n : Nat} {l : Lane} (h : l.Located n) (hhi : f64Ge l.value l.hi = true) :
    l.dirs.toNat = 2 ^ n - 1 :=
  Nat.eq_sub_of_add_eq (h.below_hi.resolve_right (by simp [hhi]))

/-! ### The ends on the grid -/

theorem Lane.OnGrid.lower_le_lo {lo0 hi0 : ℚ} {n : Nat} {l : Lane} (h0 : lo0 < hi0) (h : l.OnGrid lo0 hi0 n) :
    lo0 ≤ f64Value l.lo := by
  obtain ⟨-, -, -, -, hlo, -⟩ := h
  have hw : 0 ≤ (l.dirs.toNat : ℚ) * ((hi0 - lo0) / 2 ^ n) :=
    mul_nonneg (Nat.cast_nonneg _) (div_nonneg (sub_nonneg.mpr h0.le) (by positivity))
  linarith

theorem Lane.OnGrid.hi_le_upper {lo0 hi0 : ℚ} {n : Nat} {l : Lane} (h0 : lo0 < hi0) (h : l.OnGrid lo0 hi0 n) :
    f64Value l.hi ≤ hi0 := by
  obtain ⟨-, -, -, hd, hlo, hhi, -⟩ := h
  have hcells : (l.dirs.toNat : ℚ) + 1 ≤ 2 ^ n := by exact_mod_cast hd
  have hw : 0 ≤ (hi0 - lo0) / 2 ^ n := div_nonneg (sub_nonneg.mpr h0.le) (by positivity)
  calc f64Value l.hi = lo0 + ((l.dirs.toNat : ℚ) + 1) * ((hi0 - lo0) / 2 ^ n) := by rw [hhi, hlo]; ring
    _ ≤ lo0 + 2 ^ n * ((hi0 - lo0) / 2 ^ n) := by gcongr
    _ = hi0 := by rw [mul_div_cancel₀ _ (by positivity)]; ring

/-! ### The direction word by the kind of coordinate (R113 to R115) -/

section OnTheGrid

variable {lo0 hi0 : ℚ} {n : Nat} {l : Lane}

theorem Lane.Located.dirs_of_nan (h : l.Located n) (hv : f64IsNaN l.value = true) : l.dirs.toNat = 0 :=
  h.dirs_eq_zero (f64Ge_nan_left _ hv)

theorem Lane.Located.dirs_of_posInf (h : l.Located n) (hg : l.OnGrid lo0 hi0 n) (hv : f64IsInf l.value = true)
    (hs : f64Sign l.value = false) : l.dirs.toNat = 2 ^ n - 1 := by
  obtain ⟨-, -, fh, -⟩ := hg
  exact h.dirs_eq_ones (by rw [f64Ge_inf_left hv fh, hs, Bool.not_false])

theorem Lane.Located.dirs_of_negInf (h : l.Located n) (hg : l.OnGrid lo0 hi0 n) (hv : f64IsInf l.value = true)
    (hs : f64Sign l.value = true) : l.dirs.toNat = 0 := by
  obtain ⟨fl, -⟩ := hg
  exact h.dirs_eq_zero (by rw [f64Ge_inf_left hv fl, hs, Bool.not_true])

theorem Lane.Located.dirs_of_lt_lower (h : l.Located n) (h0 : lo0 < hi0) (hg : l.OnGrid lo0 hi0 n)
    (hv : f64IsFinite l.value = true) (hlt : f64Value l.value < lo0) : l.dirs.toNat = 0 := by
  have hle := hg.lower_le_lo h0
  obtain ⟨fl, -⟩ := hg
  exact h.dirs_eq_zero (by rw [f64Ge_finite hv fl, decide_eq_false_iff_not, not_le]; exact hlt.trans_le hle)

theorem Lane.Located.dirs_of_ge_upper (h : l.Located n) (h0 : lo0 < hi0) (hg : l.OnGrid lo0 hi0 n)
    (hv : f64IsFinite l.value = true) (hge : hi0 ≤ f64Value l.value) : l.dirs.toNat = 2 ^ n - 1 := by
  have hle := hg.hi_le_upper h0
  obtain ⟨-, -, fh, -⟩ := hg
  exact h.dirs_eq_ones (by rw [f64Ge_finite hv fh, decide_eq_true_iff]; exact hle.trans hge)

/-- For a finite coordinate the word is its grid cell, cut to the lowest and the highest one. -/
theorem Lane.Located.dirs_eq_cell (h : l.Located n) (h0 : lo0 < hi0) (hg : l.OnGrid lo0 hi0 n)
    (hv : f64IsFinite l.value = true) :
    l.dirs.toNat = min (2 ^ n - 1) ⌊2 ^ n * (f64Value l.value - lo0) / (hi0 - lo0)⌋.toNat := by
  obtain ⟨fl, -, fh, -, hlo, hhi, -⟩ := hg
  obtain ⟨hd, habove, hbelow⟩ := h
  rw [f64Ge_finite hv fl, decide_eq_true_iff, hlo] at habove
  rw [f64Ge_finite hv fh, decide_eq_false_iff_not, not_le, hhi, hlo] at hbelow
  have hw : 0 < (hi0 - lo0) / 2 ^ n := div_pos (sub_pos.mpr h0) (by positivity)
  -- the coordinate's place in the bracket, in cells of width `w`
  have hx : 2 ^ n * (f64Value l.value - lo0) / (hi0 - lo0) = (f64Value l.value - lo0) / ((hi0 - lo0) / 2 ^ n) := by
    rw [div_div_eq_mul_div, mul_comm]
  rw [hx, Int.floor_toNat]
  generalize (hi0 - lo0) / 2 ^ n = w at *
  have hfloor : l.dirs.toNat ≤ ⌊(f64Value l.value - lo0) / w⌋₊ := by
    rcases habove with hzero | hle
    · rw [hzero]
      exact Nat.zero_le _
    · exact Nat.le_floor ((le_div_iff₀ hw).mpr (by linarith))
  have htop : l.dirs.toNat + 1 = 2 ^ n ∨ ⌊(f64Value l.value - lo0) / w⌋₊ < l.dirs.toNat + 1 :=
    hbelow.imp_right fun hlt =>
      (Nat.floor_lt' (Nat.succ_ne_zero _)).mpr ((div_lt_iff₀ hw).mpr (by push_cast; linarith))
  omega

/-- The direction word is the closed form of its coordinate (R113), whatever kind of datum that is. -/
theorem Lane.Located.dirs_eq_closedForm (h : l.Located n) (h0 : lo0 < hi0) (hg : l.OnGrid lo0 hi0 n) :
    l.dirs.toNat = closedForm l.value lo0 hi0 n := by
  unfold closedForm
  split_ifs with hnan hinf hneg hlt
  · exact h.dirs_of_nan hnan
  · exact h.dirs_of_negInf hg hinf hneg
  · exact h.dirs_of_posInf hg hinf (Bool.eq_false_iff.mpr hneg)
  · exact h.dirs_of_lt_lower h0 hg (((f64_cases _).resolve_left hnan).resolve_left hinf) hlt
  · exact h.dirs_eq_cell h0 hg (((f64_cases _).resolve_left hnan).resolve_left hinf)

end OnTheGrid

/-! ### The 32 steps of a request -/

theorem lat_steps_onGrid (v : F64) : ((Lane.load v latBracket).steps 32).OnGrid (-90) 90 32 := by
  have h := (load_lat_onGrid v).steps (by norm_num) 32 (by norm_num)
  rwa [Nat.cast_ofNat, Nat.zero_add] at h

theorem lon_steps_onGrid (v : F64) : ((Lane.load v lonBracket).steps 32).OnGrid (-180) 180 32 := by
  have h := (load_lon_onGrid v).steps (by norm_num) 32 (by norm_num)
  rwa [Nat.cast_ofNat, Nat.zero_add] at h

theorem load_steps_value (v : F64) (b : Bracket) (n : Nat) : ((Lane.load v b).steps n).value = v :=
  Lane.steps_value _ _

section Request

variable {v : F64} {b : Bracket} {lo0 hi0 : ℚ}

theorem steps_dirs_closedForm (h0 : lo0 < hi0) (hg : ((Lane.load v b).steps 32).OnGrid lo0 hi0 32) :
    ((Lane.load v b).steps 32).dirs.toNat = closedForm v lo0 hi0 32 := by
  have h := (load_steps_located v b le_rfl).dirs_eq_closedForm h0 hg
  rwa [load_steps_value] at h

theorem steps_dirs_nonFinite (hg : ((Lane.load v b).steps 32).OnGrid lo0 hi0 32) :
    (f64IsNaN v = true → ((Lane.load v b).steps 32).dirs = 0x00000000) ∧
    (f64IsInf v = true → f64Sign v = false → ((Lane.load v b).steps 32).dirs = 0xFFFFFFFF) ∧
    (f64IsInf v = true → f64Sign v = true → ((Lane.load v b).steps 32).dirs = 0x00000000) := by
  have h := load_steps_located v b le_rfl
  have hv := load_steps_value v b 32
  refine ⟨fun hnan => ?_, fun hinf hs => ?_, fun hinf hs => ?_⟩
  · exact BitVec.eq_of_toNat_eq (h.dirs_of_nan (by rwa [hv]))
  · exact BitVec.eq_of_toNat_eq (h.dirs_of_posInf hg (by rwa [hv]) (by rwa [hv]))
  · exact BitVec.eq_of_toNat_eq (h.dirs_of_negInf hg (by rwa [hv]) (by rwa [hv]))

theorem steps_dirs_outOfRange (h0 : lo0 < hi0) (hg : ((Lane.load v b).steps 32).OnGrid lo0 hi0 32)
    (hfin : f64IsFinite v = true) :
    (hi0 ≤ f64Value v → ((Lane.load v b).steps 32).dirs = 0xFFFFFFFF) ∧
    (f64Value v < lo0 → ((Lane.load v b).steps 32).dirs = 0x00000000) := by
  have h := load_steps_located v b le_rfl
  have hv := load_steps_value v b 32
  refine ⟨fun hge => ?_, fun hlt => ?_⟩
  · exact BitVec.eq_of_toNat_eq (h.dirs_of_ge_upper h0 hg (by rwa [hv]) (by rwa [hv]))
  · exact BitVec.eq_of_toNat_eq (h.dirs_of_lt_lower h0 hg (by rwa [hv]) (by rwa [hv]))

end Request

/-- Settles O29: a NaN is above no end and an infinity above both or none, on the grid of either lane. -/
theorem nonFiniteCoordinatesSaturate : Obligations.NonFiniteCoordinatesSaturate := by
  rintro v b (rfl | rfl)
  · exact steps_dirs_nonFinite (lat_steps_onGrid v)
  · exact steps_dirs_nonFinite (lon_steps_onGrid v)

/-- Settles O30: the ends stay inside the starting bracket, so a coordinate outside it is above both or none. -/
theorem outOfRangeCoordinatesSaturate : Obligations.OutOfRangeCoordinatesSaturate := by
  intro v hfin
  obtain ⟨latHigh, latLow⟩ := steps_dirs_outOfRange (by norm_num) (lat_steps_onGrid v) hfin
  obtain ⟨lonHigh, lonLow⟩ := steps_dirs_outOfRange (by norm_num) (lon_steps_onGrid v) hfin
  exact ⟨latHigh, latLow, lonHigh, lonLow⟩

/-- Settles O32: the registers are on the grid, and the comparisons made place the coordinate in the word's cell. -/
theorem directionWordHasItsClosedForm : Obligations.DirectionWordHasItsClosedForm := fun v =>
  ⟨steps_dirs_closedForm (by norm_num) (lat_steps_onGrid v), lat_steps_onGrid v,
    steps_dirs_closedForm (by norm_num) (lon_steps_onGrid v), lon_steps_onGrid v⟩

end Sys2Proof.Machine
end

section
/-! PROOFS. The interleaver (41_interleaver.md R140, R142). -/

namespace Sys2Proof.Machine

/-! ### The bits of the interleaved word (R140) -/

theorem interleave_getLsbD (latd lond : DirWord) {b : Nat} (hb : b < 64) :
    (interleave latd lond).getLsbD b = if b % 2 = 1 then lond.getLsbD (b / 2) else latd.getLsbD (b / 2) := by
  rw [interleave, interleaveFrom_getLsbD latd lond 32 le_rfl b hb]
  simp

theorem interleave_getLsbD_even (latd lond : DirWord) {n : Nat} (hn : n < 32) :
    (interleave latd lond).getLsbD (2 * n) = latd.getLsbD n := by
  rw [interleave_getLsbD latd lond (by omega), if_neg (by omega), show 2 * n / 2 = n by omega]

theorem interleave_getLsbD_odd (latd lond : DirWord) {n : Nat} (hn : n < 32) :
    (interleave latd lond).getLsbD (2 * n + 1) = lond.getLsbD n := by
  rw [interleave_getLsbD latd lond (by omega), if_pos (by omega), show (2 * n + 1) / 2 = n by omega]

/-! ### The way back -/

/-- The latitude word of an interleaved word: its even bits. -/
def evenBits (w : IlWord) : DirWord := BitVec.ofFnLE fun n => w.getLsbD (2 * n)

/-- The longitude word of an interleaved word: its odd bits. -/
def oddBits (w : IlWord) : DirWord := BitVec.ofFnLE fun n => w.getLsbD (2 * n + 1)

theorem evenBits_getLsbD (w : IlWord) {n : Nat} (hn : n < 32) : (evenBits w).getLsbD n = w.getLsbD (2 * n) := by
  rw [evenBits, BitVec.getLsbD_ofFnLE, dif_pos hn]

theorem oddBits_getLsbD (w : IlWord) {n : Nat} (hn : n < 32) : (oddBits w).getLsbD n = w.getLsbD (2 * n + 1) := by
  rw [oddBits, BitVec.getLsbD_ofFnLE, dif_pos hn]

@[simp] theorem evenBits_interleave (latd lond : DirWord) : evenBits (interleave latd lond) = latd :=
  BitVec.eq_of_getLsbD_eq fun _ hn => by rw [evenBits_getLsbD _ hn, interleave_getLsbD_even _ _ hn]

@[simp] theorem oddBits_interleave (latd lond : DirWord) : oddBits (interleave latd lond) = lond :=
  BitVec.eq_of_getLsbD_eq fun _ hn => by rw [oddBits_getLsbD _ hn, interleave_getLsbD_odd _ _ hn]

@[simp] theorem interleave_evenBits_oddBits (w : IlWord) : interleave (evenBits w) (oddBits w) = w := by
  refine BitVec.eq_of_getLsbD_eq fun b hb => ?_
  rw [interleave_getLsbD _ _ hb]
  split_ifs with hodd
  · rw [oddBits_getLsbD _ (by omega), show 2 * (b / 2) + 1 = b by omega]
  · rw [evenBits_getLsbD _ (by omega), show 2 * (b / 2) = b by omega]

theorem interleave_inj {a b c d : DirWord} (h : interleave a b = interleave c d) : a = c ∧ b = d :=
  ⟨by simpa using congrArg evenBits h, by simpa using congrArg oddBits h⟩

/-! ### The obligations -/

/-- Settles O34: the loop places every bit once, and taking the even and the odd bits is its inverse on both sides. -/
theorem interleaveAlternatesTheWords : Obligations.InterleaveAlternatesTheWords :=
  ⟨fun latd lond _ hb => interleave_getLsbD latd lond hb, fun _ _ _ _ => interleave_inj,
    fun w => ⟨evenBits w, oddBits w, interleave_evenBits_oddBits w⟩⟩

/-- Settles O35, by running the loop on the two words. -/
theorem interleaveExampleHolds : Obligations.InterleaveExampleHolds := by
  unfold Obligations.InterleaveExampleHolds
  decide +kernel

end Sys2Proof.Machine
end

section
/-! PROOFS. The base-32 packer (42_packer.md R150, R151, R153). -/

namespace Sys2Proof.Machine

/-! ### The alphabet ROM (R150, R153) -/

/-- The character codes the ROM holds, in order: entry `n` is the character of symbol `n`. -/
def alphabetCodes : List Nat := alphabet.toList.map BitVec.toNat

theorem alphabetCodes_getElem? (v : Symbol) : alphabetCodes[v.toNat]? = some (lutChar v).toNat := by
  rw [alphabetCodes, List.getElem?_map, Vector.getElem?_toList, Vector.getElem?_eq_getElem v.isLt, Option.map_some,
    lutChar]

theorem lutChar_mem_alphabetCodes (v : Symbol) : (lutChar v).toNat ∈ alphabetCodes :=
  List.mem_of_getElem? (alphabetCodes_getElem? v)

theorem alphabetCodes_eq : alphabetCodes = "0123456789bcdefghjkmnpqrstuvwxyz".toList.map Char.toNat := by
  decide +kernel

theorem alphabetCodes_excludes : ∀ n ∈ alphabetCodes, n ≠ 'a'.toNat ∧ n ≠ 'i'.toNat ∧ n ≠ 'l'.toNat ∧ n ≠ 'o'.toNat ∧
    ¬('A'.toNat ≤ n ∧ n ≤ 'Z'.toNat) := by decide +kernel

/-- A text with the ROM's codes is what LUT_CHAR reads: the symbol is the place in the text. -/
theorem lutChar_of_codes {text : List Char} (htext : alphabetCodes = text.map Char.toNat) (v : Symbol) :
    (lutChar v).toNat = (text.getD v.toNat ' ').toNat := by
  have hrom := alphabetCodes_getElem? v
  rw [htext, List.getElem?_map, Option.map_eq_some_iff] at hrom
  obtain ⟨c, hc, hcode⟩ := hrom
  rw [List.getD_eq_getElem?_getD, hc, Option.getD_some, hcode]

/-! ### The obligations -/

/-- Settles O36: the loop's value is the slice up to index 11, and above it the symbol does not exist. -/
theorem packSymIsASliceOfTheWord : Obligations.PackSymIsASliceOfTheWord := fun il i =>
  ⟨fun hi => by rw [packSym_of_le il hi, packFrom_slice il i.toNat hi], packSym_of_gt il⟩

/-- Settles O37: the ROM holds the text's codes in order, and every character read is an entry of it. -/
theorem lutCharReadsTheAlphabet : Obligations.LutCharReadsTheAlphabet := fun v =>
  ⟨lutChar_of_codes alphabetCodes_eq v, alphabetCodes_excludes _ (lutChar_mem_alphabetCodes v)⟩

end Sys2Proof.Machine
end

section
/-! PROOFS. The sequencer's rows (43_sequencer.md R173 to R175, R177 to R180). -/

namespace Sys2Proof

/-- A control vector that hits a row of the map decodes to that row's instruction (30_encoding.md R84). -/
theorem decodeCtl_of_hit {i : Instr} {pattern mask cv : ControlVector} (hr : ⟨i, pattern, mask⟩ ∈ ctlRows)
    (h : cv &&& mask = pattern) : decodeCtl cv = some i :=
  (decodeCtl_eq_some_iff hr cv).mpr h

end Sys2Proof

namespace Sys2Proof.Machine

/-! ### The rows' meanings -/

/-- R178, with the counters' part named by `countChar`. -/
theorem execEmitChar_of_written {s : State} (hw : s.written = true) (hi : s.i.toNat ≤ 11) :
    exec .emitChar s =
      .next (s.takeBeats [charBeat (s.ilNet.extractLsb' (59 - 5 * s.i.toNat) 5) s.i s.prec]).countChar := by
  rw [← packFrom_slice s.ilNet s.i.toNat hi]
  exact (readData_of_written hw _).trans (withSym_of_le hi _)

theorem iLast_eq_decide (i prec : BitVec 4) : iLast i prec = decide (i.toNat + 1 = prec.toNat) :=
  beq_eq_decide _ _

/-- R110: both lanes start at midpoint +0.0, which the model computes from the ends. -/
theorem load_latBracket (v : F64) :
    Lane.load v latBracket =
      { value := v, lo := 0xC056800000000000, mid := 0x0000000000000000, hi := 0x4056800000000000, dirs := 0 } := by
  rw [latBracket_eq]
  rfl

theorem load_lonBracket (v : F64) :
    Lane.load v lonBracket =
      { value := v, lo := 0xC066800000000000, mid := 0x0000000000000000, hi := 0x4066800000000000, dirs := 0 } := by
  rw [lonBracket_eq]
  rfl

theorem execInit_eq (s : State) :
    exec .init s = .next { s with
      prec := precField s.pins.reqPrec, lat := Lane.load s.pins.reqLat latBracket,
      lon := Lane.load s.pins.reqLon lonBracket, written := true, k := 0, i := 0, st := BISECT } := rfl

/-! ### The obligations -/

/-- Settles O14: the symbol is the slice of the net, and whether `I` is the last index tells where the counters go. -/
theorem emitCharHandsOverTheBeat : Obligations.EmitCharHandsOverTheBeat := by
  refine ⟨fun cv => decodeCtl_of_hit (by decide), fun s hw hi => ?_⟩
  rw [execEmitChar_of_written hw hi, charBeat, iLast_eq_decide]
  by_cases hlast : s.i.toNat + 1 = s.prec.toNat
  · rw [countChar_last (s := s.takeBeats _) hlast]
    simp [hlast, State.takeBeats, State.ilNet]
  · rw [countChar_more (s := s.takeBeats _) hlast]
    simp [hlast, State.takeBeats, State.ilNet]

/-- Settles O9: each row of the map is the holding row's, and its meaning is the state itself. -/
theorem holdingRowsWriteNothing : Obligations.HoldingRowsWriteNothing :=
  ⟨fun _ => ⟨decodeCtl_of_hit (by decide), decodeCtl_of_hit (by decide), decodeCtl_of_hit (by decide)⟩,
    fun _ => ⟨rfl, rfl, rfl⟩⟩

/-- Settles O10: the row of the map is INIT's, and the brackets it loads have midpoint +0.0. -/
theorem initLoadsTheRequest : Obligations.InitLoadsTheRequest := by
  refine ⟨fun cv => decodeCtl_of_hit (by decide), fun s => ?_⟩
  rw [execInit_eq, load_latBracket, load_lonBracket]
  rfl

/-- Settles O11: the row of the map is REJECT's, and the entry to InvalidPrecision writes `ST` alone. -/
theorem rejectOnlyEntersError : Obligations.RejectOnlyEntersError :=
  ⟨fun _ => decodeCtl_of_hit (by decide), fun _ => rfl⟩

/-- Settles O15: the row of the map is ERR_RSP's, and the return from InvalidPrecision is the taken beat and `ST`. -/
theorem errRspHandsOverTheErrorBeat : Obligations.ErrRspHandsOverTheErrorBeat :=
  ⟨fun _ => decodeCtl_of_hit (by decide), fun _ => rfl⟩

end Sys2Proof.Machine
end

section
/-! PROOFS. The laws of the response (43_sequencer.md R185 to R187). -/

namespace Sys2Proof.Machine

/-! ### The response by its precision (R170) -/

/-- The interleaved sequence of a request's two direction sequences. -/
def requestSeq (lat lon : F64) : List Bool :=
  interleaveSeq (bisect lon lonBracket Config.steps).1 (bisect lat latBracket Config.steps).1

theorem response_of_ok (lat lon : F64) {prec : BitVec 32} (h : precOk prec = true) :
    response lat lon prec = (List.range prec.toNat).map (seqBeat (requestSeq lat lon) prec.toNat) := if_pos h

theorem response_of_not_ok (lat lon : F64) {prec : BitVec 32} (h : ¬ precOk prec = true) :
    response lat lon prec = [errorBeat] := if_neg h

/-- An accepted precision is the same number read with or without sign. -/
theorem toInt_of_precOk {p : BitVec 32} (h : precOk p = true) : p.toInt = p.toNat := by
  obtain ⟨-, -, hle⟩ := precField_of_ok h
  exact BitVec.toInt_eq_toNat_of_lt (by omega)

/-! ### The beats of an accepted request -/

@[simp] theorem seqBeat_char (s : List Bool) (p i : Nat) :
    (seqBeat s p i).char = lutChar (BitVec.ofNat 5 (seqSymbol s i)) := rfl
@[simp] theorem seqBeat_err (s : List Bool) (p i : Nat) : (seqBeat s p i).err = false := rfl
@[simp] theorem seqBeat_code (s : List Bool) (p i : Nat) : (seqBeat s p i).code = 0 := rfl
@[simp] theorem seqBeat_last (s : List Bool) (p i : Nat) : (seqBeat s p i).last = true ↔ i + 1 = p := beq_iff_eq

theorem seqBeat_idx_toNat (s : List Bool) (p : Nat) {i : Nat} (hi : i < 16) : (seqBeat s p i).idx.toNat = i :=
  (BitVec.toNat_ofNat i 4).trans (Nat.mod_eq_of_lt hi)

theorem response_length (lat lon : F64) {prec : BitVec 32} (h : precOk prec = true) :
    (response lat lon prec).length = prec.toNat := by
  rw [response_of_ok lat lon h, List.length_map, List.length_range]

theorem response_getElem? (lat lon : F64) {prec : BitVec 32} (h : precOk prec = true) {n : Nat} {b : Beat}
    (hb : (response lat lon prec)[n]? = some b) : n < prec.toNat ∧ b = seqBeat (requestSeq lat lon) prec.toNat n := by
  have hn : n < (response lat lon prec).length := (List.getElem?_eq_some_iff.mp hb).1
  rw [response_length lat lon h] at hn
  rw [response_of_ok lat lon h, List.getElem?_map, List.getElem?_range hn] at hb
  exact ⟨hn, (Option.some.inj hb).symm⟩

/-- The characters of a response come from the symbols alone: the precision only says how many there are. -/
theorem response_map_char (lat lon : F64) {prec : BitVec 32} (h : precOk prec = true) :
    (response lat lon prec).map Beat.char =
      (List.range prec.toNat).map fun i => lutChar (BitVec.ofNat 5 (seqSymbol (requestSeq lat lon) i)) := by
  simp only [response_of_ok lat lon h, List.map_map, Function.comp_def, seqBeat_char]

/-! ### The obligations -/

/-- Settles O46: an accepted request has the beats of the indices below `p`, a refused one the error beat. -/
theorem responseHasOneBeatPerCharacter : Obligations.ResponseHasOneBeatPerCharacter := by
  refine fun lat lon prec => ⟨fun h1 h12 => ?_, fun hbad => response_of_not_ok lat lon ?_⟩
  · have hok := (precOk_iff prec).mpr ⟨h1, h12⟩
    have hint := toInt_of_precOk hok
    refine ⟨by rw [response_length lat lon hok, hint], fun n b hb => ?_⟩
    obtain ⟨hn, rfl⟩ := response_getElem? lat lon hok hb
    refine ⟨seqBeat_idx_toNat _ _ (by omega), seqBeat_err _ _ _, seqBeat_code _ _ _, ?_⟩
    rw [seqBeat_last, hint]
    omega
  · rw [precOk_iff]
    omega

/-- Settles O47: a beat that is no error beat has a character the ROM holds. -/
theorem responseStaysInTheAlphabet : Obligations.ResponseStaysInTheAlphabet := by
  intro lat lon prec b hb herr
  by_cases hok : precOk prec = true
  · rw [response_of_ok lat lon hok] at hb
    obtain ⟨i, -, rfl⟩ := List.mem_map.mp hb
    rw [seqBeat_char, ← alphabetCodes_eq]
    exact lutChar_mem_alphabetCodes _
  · rw [response_of_not_ok lat lon hok, List.mem_singleton] at hb
    subst hb
    exact absurd herr (by decide)

/-- Settles O48: both codes are initial segments of one sequence of characters. -/
theorem shorterCodeIsAPrefix : Obligations.ShorterCodeIsAPrefix := by
  intro lat lon prec h1 h11
  have hok := (precOk_iff prec).mpr ⟨h1, by omega⟩
  have hint := toInt_of_precOk hok
  have hsucc : (prec + 1).toNat = prec.toNat + 1 := by bv_omega
  have hok' : precOk (prec + 1) = true := by
    rw [precOk_iff, BitVec.toInt_eq_toNat_of_lt (by omega), hsucc]
    omega
  rw [response_map_char lat lon hok, response_map_char lat lon hok', hsucc, ← List.map_take, List.take_range,
    Nat.min_eq_left (Nat.le_succ _)]

end Sys2Proof.Machine
end

section
/-! PROOFS. The exception InvalidPrecision and the reserved states (60_exceptions.md R203 to R205). -/

namespace Sys2Proof.Machine

/-! ### Edges by the row they perform -/

/-- An edge performs a row when its pins select the row. -/
theorem edge_of_selected {p : Pins} {s : State} {i : Instr} (h : selected (s.drive p s.bench) = i) :
    edge p s = exec i { s with pins := p } := by
  rw [edge_eq, h]
  rfl

theorem edge_of_rst {p : Pins} (s : State) (h : p.rst = true) : edge p s = exec .reset { s with pins := p } := by
  apply edge_of_selected
  simp [selected_drive, h]

/-- R203: a request of a bad precision, presented in IDLE, is rejected at the edge. -/
theorem edge_reject {p : Pins} {s : State} (hst : s.st = IDLE) (hrst : p.rst = false) (hval : p.reqValid = true)
    (hprec : ¬ precOk p.reqPrec = true) : edge p s = .next { s with pins := p, st := ERROR } := by
  have hrow : selected (s.drive p s.bench) = .reject := by simp [selected_drive, hst, hrst, hval, hprec]
  exact edge_of_selected hrow

/-- R204: in ERROR the consumer's `rsp_ready` alone chooses between waiting and the return. -/
theorem edge_error {p : Pins} {s : State} (hst : s.st = ERROR) (hrst : p.rst = false) :
    edge p s = exec (if p.rspReady then .errRsp else .errHold) { s with pins := p } := by
  apply edge_of_selected
  simp [selected_drive, hst, hrst]

/-! ### The reserved states (R205) -/

/-- The states the sequencer's rows name (10_state.md R23). -/
def namedStates : List (BitVec 3) := [IDLE, BISECT, EMIT, ERROR]

theorem namedStates_not_reserved : ∀ st ∈ namedStates, st.getLsbD 2 = false := by decide

theorem countStep_st (s : State) : s.countStep.st = s.st ∨ s.countStep.st ∈ namedStates := by
  by_cases hk : s.k.toNat = 31
  · exact .inr (countStep_last hk ▸ show EMIT ∈ namedStates by decide)
  · exact .inl (by rw [countStep_more hk])

theorem countChar_st (s : State) : s.countChar.st = s.st ∨ s.countChar.st ∈ namedStates := by
  by_cases hi : s.i.toNat + 1 = s.prec.toNat
  · exact .inr (countChar_last hi ▸ show IDLE ∈ namedStates by decide)
  · exact .inl (by rw [countChar_more hi])

theorem execEncode_next_st {lat lon : F64} {prec : BitVec 32} {s t : State} (h : execEncode lat lon prec s = .next t) :
    t.st = s.st := by
  unfold execEncode at h
  split_ifs at h <;> cases h <;> rfl

/-- What a row can do to `ST`: keep it, or write one of the named states. -/
theorem exec_next_st {i : Instr} {s t : State} (h : exec i s = .next t) : t.st = s.st ∨ t.st ∈ namedStates := by
  cases i with
  | encode => exact .inl (execEncode_next_st h)
  | idleWait | emitHold | errHold => cases h; exact .inl rfl
  | reset | errRsp => cases h; exact .inr (show IDLE ∈ namedStates by decide)
  | reject => cases h; exact .inr (show ERROR ∈ namedStates by decide)
  | init => cases h; exact .inr (show BISECT ∈ namedStates by decide)
  | reservedSt => cases h
  | bisectStep =>
    obtain ⟨-, hgo⟩ := readData_next.mp h
    cases hgo
    exact countStep_st _
  | emitChar =>
    obtain ⟨-, hgo⟩ := readData_next.mp h
    obtain ⟨v, -, hv⟩ := withSym_next.mp hgo
    cases hv
    exact countChar_st _
  | interleave =>
    obtain ⟨-, hgo⟩ := readData_next.mp h
    cases hgo
    exact .inl rfl
  | packSym | lutChar =>
    obtain ⟨-, hgo⟩ := readData_next.mp h
    obtain ⟨v, -, hv⟩ := withSym_next.mp hgo
    cases hv
    exact .inl rfl

theorem exec_keeps_not_reserved {i : Instr} {s t : State} (h : exec i s = .next t) (hs : s.st.getLsbD 2 = false) :
    t.st.getLsbD 2 = false := by
  obtain hkeep | hnamed := exec_next_st h
  · rw [hkeep, hs]
  · exact namedStates_not_reserved _ hnamed

/-- The mask of the row RESERVED_ST holds `rst` and `ST[2]`, and no other bit. -/
theorem and_reservedMask {cv : ControlVector} (hrst : cv.getLsbD 8 = false) (hst : cv.getLsbD 7 = true) :
    cv &&& 0x180 = 0x080 := by
  ext n hn
  interval_cases n <;> simp_all

/-- No named state is reserved, so in a reserved one the pins select no other row. -/
theorem selected_reserved {s : State} {p : Pins} (b : Bench) (hst : s.st.getLsbD 2 = true) (hrst : p.rst = false) :
    selected (s.drive p b) = .reservedSt := by
  have hnot : s.st ∉ namedStates := fun hmem => Bool.false_ne_true ((namedStates_not_reserved _ hmem).symm.trans hst)
  simp only [namedStates, List.mem_cons, not_or] at hnot
  obtain ⟨hIdle, hBisect, hEmit, hError, -⟩ := hnot
  simp [selected_drive, hrst, hIdle, hBisect, hEmit, hError]

/-! ### The obligations -/

/-- Settles O16: the rejected request leaves a state in ERROR, where an edge either waits or takes the error beat. -/
theorem invalidPrecisionIsOneErrorBeat : Obligations.InvalidPrecisionIsOneErrorBeat := by
  intro s p q hst hrst hval hprec hq
  have hbad : ¬ precOk p.reqPrec = true := by
    rw [precOk_iff]
    omega
  refine ⟨_, edge_reject hst hrst hval hbad, rfl, rfl, fun hwait => ?_, fun htake => ?_⟩
  · rw [edge_error rfl hq, hwait]
    rfl
  · rw [edge_error rfl hq, htake]
    rfl

/-- Settles O17: a row keeps `ST` or writes a named state, and a reserved state's edges perform RESERVED_ST or RESET. -/
theorem reservedStateFaultsUntilReset : Obligations.ReservedStateFaultsUntilReset := by
  refine ⟨fun _ _ _ => exec_keeps_not_reserved, fun cv hrst hst => ?_, fun _ => rfl,
    fun s p hst => ⟨fun hrst => ?_, fun hrst => ?_⟩⟩
  · exact decodeCtl_of_hit (by decide) (and_reservedMask hrst hst)
  · exact edge_of_selected (selected_reserved s.bench hst hrst)
  · exact ⟨_, edge_of_rst s hrst, rfl⟩

end Sys2Proof.Machine
end

section
/-! PROOFS. Reset edges, and edges that take no request (70_reset_and_hazards.md R230, R237). -/

namespace Sys2Proof.Machine

/-! ### The row of an edge that takes no request (R171) -/

/-- The row performed at an edge that is no request handshake: the request ports have no part in choosing it. -/
def rowWithoutRequest (st : BitVec 3) (rst ready : Bool) : Instr :=
  if rst then .reset
  else if st = IDLE then .idleWait
  else if st = BISECT then .bisectStep
  else if st = EMIT then (if ready then .emitChar else .emitHold)
  else if st = ERROR then (if ready then .errRsp else .errHold)
  else .reservedSt

theorem rowWithoutRequest_ne_init (st : BitVec 3) (rst ready : Bool) : rowWithoutRequest st rst ready ≠ .init := by
  unfold rowWithoutRequest
  split_ifs <;> decide

theorem reqValid_of_no_handshake {st : BitVec 3} {p : Pins} (h : requestHandshake st p = false) (hst : st = IDLE)
    (hrst : p.rst = false) : p.reqValid = false := by
  simpa [requestHandshake, reqReady, hst, hrst] using h

theorem selected_of_no_handshake {s : State} {p : Pins} (b : Bench) (h : requestHandshake s.st p = false) :
    selected (s.drive p b) = rowWithoutRequest s.st p.rst p.rspReady := by
  rw [selected_drive, rowWithoutRequest]
  by_cases hrst : p.rst = true
  · rw [if_pos hrst, if_pos hrst]
  by_cases hst : s.st = IDLE
  · simp [hst, hrst, reqValid_of_no_handshake h hst (Bool.eq_false_of_not_eq_true hrst)]
  · simp only [if_neg hst]

theorem edge_of_no_handshake {s : State} {p : Pins} (h : requestHandshake s.st p = false) :
    edge p s = exec (rowWithoutRequest s.st p.rst p.rspReady) { s with pins := p } :=
  edge_of_selected (selected_of_no_handshake s.bench h)

/-! ### Rows that do not read the pins -/

/-- The same state at an edge with the input ports `q`. -/
def State.withPins (s : State) (q : Pins) : State := { s with pins := q }

@[simp] theorem State.withPins_st (s : State) (q : Pins) : (s.withPins q).st = s.st := rfl

theorem countStep_withPins (s : State) (q : Pins) : (s.withPins q).countStep = s.countStep.withPins q := by
  by_cases hk : s.k.toNat = 31
  · rw [countStep_last hk, countStep_last (s := s.withPins q) hk]
    rfl
  · rw [countStep_more hk, countStep_more (s := s.withPins q) hk]
    rfl

theorem countChar_withPins (s : State) (q : Pins) : (s.withPins q).countChar = s.countChar.withPins q := by
  by_cases hi : s.i.toNat + 1 = s.prec.toNat
  · rw [countChar_last hi, countChar_last (s := s.withPins q) hi]
    rfl
  · rw [countChar_more hi, countChar_more (s := s.withPins q) hi]
    rfl

theorem execEncode_withPins {lat lon : F64} {prec : BitVec 32} {s t : State} (q : Pins)
    (h : execEncode lat lon prec s = .next t) :
    execEncode lat lon prec (s.withPins q) = .next (t.withPins q) := by
  unfold execEncode at h ⊢
  rw [State.withPins_st]
  split_ifs at h ⊢ <;> cases h <;> rfl

/-- INIT alone reads the pins: any other row, performed with other pins, leaves the same state but for the pins. -/
theorem exec_withPins {i : Instr} {s t : State} (q : Pins) (hi : i ≠ .init) (h : exec i s = .next t) :
    exec i (s.withPins q) = .next (t.withPins q) := by
  cases i with
  | encode => exact execEncode_withPins q h
  | reset | idleWait | reject | emitHold | errHold | errRsp => cases h; rfl
  | init => exact absurd rfl hi
  | reservedSt => cases h
  | bisectStep =>
    obtain ⟨hw, hgo⟩ := readData_next.mp h
    cases hgo
    exact readData_next.mpr ⟨hw, congrArg _ (countStep_withPins (s.setLanes s.lat.step s.lon.step) q)⟩
  | emitChar =>
    obtain ⟨hw, hgo⟩ := readData_next.mp h
    obtain ⟨v, hsym, hv⟩ := withSym_next.mp hgo
    cases hv
    exact readData_next.mpr ⟨hw, withSym_next.mpr ⟨v, hsym, congrArg _ (countChar_withPins (s.takeBeats [charBeat v s.i s.prec]) q)⟩⟩
  | interleave =>
    obtain ⟨hw, hgo⟩ := readData_next.mp h
    cases hgo
    exact readData_next.mpr ⟨hw, rfl⟩
  | packSym | lutChar =>
    obtain ⟨hw, hgo⟩ := readData_next.mp h
    obtain ⟨v, hsym, hv⟩ := withSym_next.mp hgo
    cases hv
    exact readData_next.mpr ⟨hw, withSym_next.mpr ⟨v, hsym, rfl⟩⟩

/-! ### The obligations -/

/-- Settles O21: both edges perform the same row, which is not INIT, the one row that reads the pins. -/
theorem requestPortsAreReadOnlyAtTheHandshake : Obligations.RequestPortsAreReadOnlyAtTheHandshake := by
  intro s t p q hp hq hrst hready h
  rw [edge_of_no_handshake hp, hrst, hready] at h
  have hq' := exec_withPins q (rowWithoutRequest_ne_init _ _ _) h
  exact ⟨_, (edge_of_no_handshake hq).trans hq', rfl, rfl, rfl⟩

/-- Settles O7: `rst` alone selects the row RESET, which writes constants to `ST`, `K`, `I` and `written` and touches
no beat. -/
theorem resetEdgeWinsOverEverything : Obligations.ResetEdgeWinsOverEverything := by
  refine ⟨fun cv => decodeCtl_of_hit (by decide), fun s => ⟨_, rfl, rfl, rfl, rfl, rfl, rfl, rfl, rfl, rfl⟩,
    fun s p hrst => ⟨?_, ?_, _, edge_of_rst s hrst, rfl, rfl, rfl, rfl, rfl⟩⟩
  · simp [reqReady, hrst]
  · simp [rspValid, hrst]

end Sys2Proof.Machine
end

section
/-! PROOFS. Words as numbers, and the round trip of the encoder and the decoder (30_encoding.md R80 to R87; log 7). -/

namespace Sys2Proof

/-! ### The numbering of words (log 7) -/

theorem rawWordOk_raw (word : FetchWord) : rawWordOk word.raw.1 word.raw.2 = true := by
  cases word with
  | req w => exact decide_eq_true w.isLt
  | ctl cv => exact decide_eq_true cv.isLt
  | comb f => cases f <;> decide

theorem rawWidthOk_raw (word : FetchWord) : rawWidthOk word.raw.1 = true :=
  (Bool.and_eq_true_iff.mp (rawWordOk_raw word)).1

/-- A word's number, read by its width, is the word again. -/
@[simp] theorem rawFetchWord_raw (word : FetchWord) : rawFetchWord word.raw.1 word.raw.2 = .ok word := by
  rw [rawFetchWord, rawWidthOk_raw, rawWordOk_raw]
  cases word with
  | req w => simp [FetchWord.raw]
  | ctl cv => simp [FetchWord.raw]
  | comb f => cases f <;> rfl

/-- Decoding a word's number is decoding the word. -/
theorem decodeTableWord_raw (word : FetchWord) : decodeTableWord word.raw.1 word.raw.2 = decode word := by
  rw [decodeTableWord, decodeRaw, rawFetchWord_raw]
  cases h : decode word <;> simp [h]

/-! ### The encoder's words -/

/-- R81, R84: the decoder reads back the word of each row of the table. -/
theorem decode_encode (i : Instr) : decode (encode i) = some i := by
  cases i with
  | encode lat lon prec => exact (Laws.EncodedWord.encode lat lon prec).2
  | reset | idleWait | reject | init | bisectStep | emitHold | emitChar | errHold | errRsp | reservedSt => decide
  | interleave | packSym | lutChar => rfl

/-! ### The obligations -/

/-- Settles O3: the decoder reads back every row's word, and reading a word's number is reading the word. -/
theorem decodeOfEncodeIsTheInstruction : Obligations.DecodeOfEncodeIsTheInstruction := fun i _ =>
  ⟨decode_encode i, rawWordOk_raw _, (decodeTableWord_raw _).trans (decode_encode i)⟩

/-- Settles O1, by decoding each of the written-out words. -/
theorem specWordsDecodeToTheirRows : Obligations.SpecWordsDecodeToTheirRows := by
  unfold Obligations.SpecWordsDecodeToTheirRows
  decide +kernel

end Sys2Proof
end

section
/-! PROOFS. What an edge, a whole command and an observation can do, said once (43_sequencer.md sections 1 to 3). -/

namespace Sys2Proof.Machine

/-! ### The counters' parts write the sequencer's registers alone -/

theorem countStep_changes (s : State) : ∃ st k i, s.countStep = { s with st := st, k := k, i := i } := by
  by_cases hk : s.k.toNat = 31
  · exact ⟨_, _, _, countStep_last hk⟩
  · exact ⟨_, _, _, countStep_more hk⟩

theorem countChar_changes (s : State) : ∃ st i, s.countChar = { s with st := st, i := i } := by
  by_cases hi : s.i.toNat + 1 = s.prec.toNat
  · exact ⟨_, _, countChar_last hi⟩
  · exact ⟨_, _, countChar_more hi⟩

/-! ### The rows by their results -/

/-- The character beat that EMIT_CHAR hands over (43_sequencer.md R178). -/
def State.currentBeat (s : State) : Beat := charBeat (BitVec.ofNat 5 (packFrom s.ilNet s.i.toNat 5)) s.i s.prec

theorem execBisectStep_next {s t : State} :
    exec .bisectStep s = .next t ↔ s.written = true ∧ (s.setLanes s.lat.step s.lon.step).countStep = t := by
  refine readData_next.trans (and_congr_right fun _ => ?_)
  rw [Host.Outcome.next.injEq]

theorem symNet_of_le {s : State} (h : s.i.toNat ≤ 11) :
    s.symNet = some (BitVec.ofNat 5 (packFrom s.ilNet s.i.toNat 5)) :=
  packSym_of_le _ h

theorem symNet_eq_some {s : State} {v : Symbol} :
    s.symNet = some v ↔ s.i.toNat ≤ 11 ∧ BitVec.ofNat 5 (packFrom s.ilNet s.i.toNat 5) = v := by
  by_cases h : s.i.toNat ≤ 11
  · simp [symNet_of_le h, h]
  · simp [State.symNet, packSym_of_gt s.ilNet (Nat.lt_of_not_le h), h]

theorem execEmitChar_next {s t : State} :
    exec .emitChar s = .next t ↔
      s.written = true ∧ s.i.toNat ≤ 11 ∧ (s.takeBeats [s.currentBeat]).countChar = t := by
  refine readData_next.trans (and_congr_right fun _ => withSym_next.trans ?_)
  simp [symNet_eq_some, State.currentBeat]

/-- An observation changes `nets` alone, and reads written registers. -/
theorem execComb_next {f : CombFn} {s t : State} (h : exec (decodeComb f) s = .next t) :
    s.written = true ∧ ∃ n, t = s.setNets n := by
  cases f with
  | interleave =>
    obtain ⟨hw, hgo⟩ := readData_next.mp h
    cases hgo
    exact ⟨hw, _, rfl⟩
  | packSym | lutChar =>
    obtain ⟨hw, hgo⟩ := readData_next.mp h
    obtain ⟨v, -, hv⟩ := withSym_next.mp hgo
    cases hv
    exact ⟨hw, _, rfl⟩

/-! ### The whole command (R170, R236) -/

/-- The registers and beats a request of an accepted precision leaves, its whole response taken. -/
def State.answerRequest (s : State) (lat lon : F64) (prec : BitVec 32) : State :=
  { s with
    prec := precField prec, lat := laneAfter lat latBracket, lon := laneAfter lon lonBracket, written := true,
    k := 0, i := 0, beats := s.beats ++ response lat lon prec }

section Encode

variable (lat lon : F64) {prec : BitVec 32} {s : State}

theorem execEncode_of_ok (hst : s.st = IDLE) (hok : precOk prec = true) :
    exec (.encode lat lon prec) s = .next (s.answerRequest lat lon prec) :=
  (if_pos hst).trans (if_pos hok)

theorem execEncode_of_not_ok (hst : s.st = IDLE) (hbad : ¬ precOk prec = true) :
    exec (.encode lat lon prec) s = .next (s.takeBeats [errorBeat]) := by
  rw [← response_of_not_ok lat lon hbad]
  exact (if_pos hst).trans (if_neg hbad)

theorem execEncode_of_busy (prec : BitVec 32) (hst : s.st ≠ IDLE) (hnot : s.st.getLsbD 2 = false) :
    exec (.encode lat lon prec) s = .next s :=
  (if_neg hst).trans (if_neg (Bool.eq_false_iff.mp hnot))

theorem execEncode_of_reserved (prec : BitVec 32) (hres : s.st.getLsbD 2 = true) :
    exec (.encode lat lon prec) s = .fault .reservedState := by
  have hst : s.st ≠ IDLE := fun h => absurd hres (by rw [h]; decide)
  exact (if_neg hst).trans (if_pos hres)

end Encode

/-- The answers of ENCODE: a taken request, a rejected one, or one that is not taken. -/
theorem execEncode_next {lat lon : F64} {prec : BitVec 32} {s t : State} (h : exec (.encode lat lon prec) s = .next t) :
    (s.st = IDLE ∧ precOk prec = true ∧ t = s.answerRequest lat lon prec) ∨
    (s.st = IDLE ∧ t = s.takeBeats [errorBeat]) ∨
    t = s := by
  by_cases hst : s.st = IDLE
  · by_cases hok : precOk prec = true
    · rw [execEncode_of_ok lat lon hst hok] at h
      exact .inl ⟨hst, hok, (Host.Outcome.next.inj h).symm⟩
    · rw [execEncode_of_not_ok lat lon hst hok] at h
      exact .inr (.inl ⟨hst, (Host.Outcome.next.inj h).symm⟩)
  · cases hres : s.st.getLsbD 2 with
    | true =>
      rw [execEncode_of_reserved lat lon prec hres] at h
      cases h
    | false =>
      rw [execEncode_of_busy lat lon prec hst hres] at h
      exact .inr (.inr (Host.Outcome.next.inj h).symm)

/-! ### The edges -/

/-- The registers at the start of a request's bisection (R174). -/
def State.startRequest (s : State) (lat lon : F64) (prec : BitVec 32) : State :=
  { s with
    prec := precField prec, lat := Lane.load lat latBracket, lon := Lane.load lon lonBracket, written := true,
    k := 0, i := 0, st := BISECT }

/-- What an edge does in a state whose pins are driven: one rule for each outcome of a row of the control map. -/
inductive EdgeStep (s : State) : State → Prop
  | reset {t : State} (hrst : s.pins.rst = true) (ht : exec .reset s = .next t) : EdgeStep s t
  | idleWait (hrst : s.pins.rst = false) (hst : s.st = IDLE) (hval : s.pins.reqValid = false) : EdgeStep s s
  | reject (hrst : s.pins.rst = false) (hst : s.st = IDLE) (hval : s.pins.reqValid = true)
      (hbad : ¬ precOk s.pins.reqPrec = true) : EdgeStep s { s with st := ERROR }
  | init (hrst : s.pins.rst = false) (hst : s.st = IDLE) (hval : s.pins.reqValid = true)
      (hok : precOk s.pins.reqPrec = true) :
      EdgeStep s (s.startRequest s.pins.reqLat s.pins.reqLon s.pins.reqPrec)
  | bisect (hrst : s.pins.rst = false) (hst : s.st = BISECT) (hw : s.written = true) (hk : s.k.toNat ≠ 31) :
      EdgeStep s { s with lat := s.lat.step, lon := s.lon.step, k := s.k + 1 }
  | bisectLast (hrst : s.pins.rst = false) (hst : s.st = BISECT) (hw : s.written = true) (hk : s.k.toNat = 31) :
      EdgeStep s { s with lat := s.lat.step, lon := s.lon.step, k := 0, i := 0, st := EMIT }
  | hold (hrst : s.pins.rst = false) (hst : s.st = EMIT ∨ s.st = ERROR) (hready : s.pins.rspReady = false) : EdgeStep s s
  | emit (hrst : s.pins.rst = false) (hst : s.st = EMIT) (hready : s.pins.rspReady = true) (hw : s.written = true)
      (hi : s.i.toNat ≤ 11) (hmore : s.i.toNat + 1 ≠ s.prec.toNat) :
      EdgeStep s { s with beats := s.beats ++ [s.currentBeat], i := s.i + 1 }
  | emitLast (hrst : s.pins.rst = false) (hst : s.st = EMIT) (hready : s.pins.rspReady = true) (hw : s.written = true)
      (hi : s.i.toNat ≤ 11) (hlast : s.i.toNat + 1 = s.prec.toNat) :
      EdgeStep s { s with beats := s.beats ++ [s.currentBeat], i := 0, st := IDLE }
  | errRsp (hrst : s.pins.rst = false) (hst : s.st = ERROR) (hready : s.pins.rspReady = true) :
      EdgeStep s { s with beats := s.beats ++ [errorBeat], st := IDLE }

/-- What the row a state selects answers is one of the edge's outcomes. -/
theorem EdgeStep.of_exec_selected {s t : State} (h : exec (selected s) s = .next t) : EdgeStep s t := by
  unfold selected at h
  by_cases hreset : s.pins.rst = true
  · rw [if_pos hreset] at h
    exact .reset hreset h
  have hrst := Bool.eq_false_of_not_eq_true hreset
  rw [if_neg hreset] at h
  split_ifs at h with hIdle hval hok hBisect hEmit hready hError hready
  · cases h
    exact .init hrst hIdle hval hok
  · cases h
    exact .reject hrst hIdle hval hok
  · cases h
    exact .idleWait hrst hIdle (Bool.eq_false_of_not_eq_true hval)
  · obtain ⟨hw, rfl⟩ := execBisectStep_next.mp h
    by_cases hk : s.k.toNat = 31
    · rw [countStep_last (s := s.setLanes s.lat.step s.lon.step) hk]
      exact .bisectLast hrst hBisect hw hk
    · rw [countStep_more (s := s.setLanes s.lat.step s.lon.step) hk]
      exact .bisect hrst hBisect hw hk
  · obtain ⟨hw, hi, rfl⟩ := execEmitChar_next.mp h
    by_cases hlast : s.i.toNat + 1 = s.prec.toNat
    · rw [countChar_last (s := s.takeBeats [s.currentBeat]) hlast]
      exact .emitLast hrst hEmit hready hw hi hlast
    · rw [countChar_more (s := s.takeBeats [s.currentBeat]) hlast]
      exact .emit hrst hEmit hready hw hi hlast
  · cases h
    exact .hold hrst (.inl hEmit) (Bool.eq_false_of_not_eq_true hready)
  · cases h
    exact .errRsp hrst hError hready
  · cases h
    exact .hold hrst (.inr hError) (Bool.eq_false_of_not_eq_true hready)
  · cases h

/-- Each of the edge's outcomes is what the row that the state selects answers. -/
theorem EdgeStep.exec_selected {s t : State} (h : EdgeStep s t) : exec (selected s) s = .next t := by
  cases h with
  | reset hrst ht => rwa [show selected s = .reset by simp [selected, hrst]]
  | idleWait hrst hst hval =>
    rw [show selected s = .idleWait by simp [selected, hrst, hst, hval]]
    rfl
  | reject hrst hst hval hbad =>
    rw [show selected s = .reject by simp [selected, hrst, hst, hval, hbad]]
    rfl
  | init hrst hst hval hok =>
    rw [show selected s = .init by simp [selected, hrst, hst, hval, hok]]
    rfl
  | bisect hrst hst hw hk =>
    rw [show selected s = .bisectStep by simp [selected, hrst, hst]]
    exact execBisectStep_next.mpr ⟨hw, countStep_more (s := s.setLanes s.lat.step s.lon.step) hk⟩
  | bisectLast hrst hst hw hk =>
    rw [show selected s = .bisectStep by simp [selected, hrst, hst]]
    exact execBisectStep_next.mpr ⟨hw, countStep_last (s := s.setLanes s.lat.step s.lon.step) hk⟩
  | hold hrst hst hready =>
    obtain hst | hst := hst
    · rw [show selected s = .emitHold by simp [selected, hrst, hst, hready]]
      rfl
    · rw [show selected s = .errHold by simp [selected, hrst, hst, hready]]
      rfl
  | emit hrst hst hready hw hi hmore =>
    rw [show selected s = .emitChar by simp [selected, hrst, hst, hready]]
    exact execEmitChar_next.mpr ⟨hw, hi, countChar_more (s := s.takeBeats [s.currentBeat]) hmore⟩
  | emitLast hrst hst hready hw hi hlast =>
    rw [show selected s = .emitChar by simp [selected, hrst, hst, hready]]
    exact execEmitChar_next.mpr ⟨hw, hi, countChar_last (s := s.takeBeats [s.currentBeat]) hlast⟩
  | errRsp hrst hst hready =>
    rw [show selected s = .errRsp by simp [selected, hrst, hst, hready]]
    rfl

theorem exec_selected_next {s t : State} : exec (selected s) s = .next t ↔ EdgeStep s t :=
  ⟨.of_exec_selected, EdgeStep.exec_selected⟩

/-- An edge with the input ports `p` is the edge rule of the state whose pins are `p`. -/
theorem edge_next {p : Pins} {s t : State} : edge p s = .next t ↔ EdgeStep (s.withPins p) t := by
  rw [edge_eq]
  exact exec_selected_next

/-- A step is an edge, a whole command or an observation, of the same registers. -/
theorem step_next_cases {s t : State} (h : step s = .next t) :
    (∃ p b, EdgeStep (s.drive p b) t) ∨
    (∃ lat lon prec b, exec (.encode lat lon prec) (s.setBench b) = .next t) ∨
    (∃ f b, exec (decodeComb f) (s.setBench b) = .next t) := by
  obtain ⟨p, b, hs⟩ | ⟨w, b, hs⟩ | ⟨f, -, b, -, hs⟩ := step_cases s
  · exact .inl ⟨p, b, exec_selected_next.mp (hs ▸ h)⟩
  · exact .inr (.inl ⟨_, _, _, b, hs ▸ h⟩)
  · exact .inr (.inr ⟨f, b, hs ▸ h⟩)

end Sys2Proof.Machine
end

section
/-! PROOFS. The sequencer's invariant (10_state.md R23 to R26, R36; 43_sequencer.md R189). -/

namespace Sys2Proof.Machine

/-! ### The invariant by the state of the sequencer -/

theorem State.ControlInv.st_cases {s : State} (h : s.ControlInv) :
    s.st = IDLE ∨ s.st = BISECT ∨ s.st = EMIT ∨ s.st = ERROR := by
  obtain ⟨hlegal, -⟩ := h
  generalize s.st = st at hlegal ⊢
  revert st
  decide

theorem controlInv_iff_of_idle_or_error {s : State} (hst : s.st = IDLE ∨ s.st = ERROR) :
    s.ControlInv ↔ s.k = 0 ∧ s.i = 0 ∧ (s.written = true → 1 ≤ s.prec.toNat ∧ s.prec.toNat ≤ 12) := by
  obtain hst | hst := hst
  · simp [State.ControlInv, hst, show IDLE.toNat ≤ 3 by decide]
  · simp [State.ControlInv, hst, show ERROR.toNat ≤ 3 by decide]

theorem controlInv_iff_of_bisect {s : State} (hst : s.st = BISECT) :
    s.ControlInv ↔ s.i = 0 ∧ s.written = true ∧ 1 ≤ s.prec.toNat ∧ s.prec.toNat ≤ 12 := by
  simp +contextual [State.ControlInv, hst, show BISECT.toNat ≤ 3 by decide]

theorem controlInv_iff_of_emit {s : State} (hst : s.st = EMIT) :
    s.ControlInv ↔ s.k = 0 ∧ s.written = true ∧ s.i.toNat < s.prec.toNat ∧ s.prec.toNat ≤ 12 := by
  have hlegal : EMIT.toNat ≤ 3 := by decide
  simp only [State.ControlInv, hst, hlegal]
  constructor
  · rintro ⟨-, hk, -, hw, hprec, hi⟩
    have hwritten := hw (.inr trivial)
    exact ⟨hk (by decide), hwritten, hi trivial, (hprec hwritten).2⟩
  · rintro ⟨hk, hw, hi, hle⟩
    exact ⟨trivial, fun _ => hk, fun h => absurd rfl h, fun _ => hw, fun _ => ⟨by omega, hle⟩, fun _ => hi⟩

/-- R189: the index is that of a character, so its symbol exists. -/
theorem State.ControlInv.i_le {s : State} (h : s.ControlInv) : s.i.toNat ≤ 11 := by
  by_cases hst : s.st = EMIT
  · obtain ⟨-, -, hi, hle⟩ := (controlInv_iff_of_emit hst).mp h
    omega
  · obtain ⟨-, -, hi, -⟩ := h
    simp [hi hst]

/-! ### Every edge is possible and keeps the invariant -/

theorem EdgeStep.keeps_controlInv {s t : State} (h : EdgeStep s t) (hs : s.ControlInv) : t.ControlInv := by
  cases h with
  | reset hrst ht =>
    cases ht
    exact (controlInv_iff_of_idle_or_error (.inl rfl)).mpr ⟨rfl, rfl, fun hw => absurd hw Bool.false_ne_true⟩
  | idleWait | hold => exact hs
  | reject hrst hst =>
    exact (controlInv_iff_of_idle_or_error (.inr rfl)).mpr ((controlInv_iff_of_idle_or_error (.inl hst)).mp hs)
  | init hrst hst hval hok =>
    obtain ⟨hfield, hone, htwelve⟩ := precField_of_ok hok
    exact (controlInv_iff_of_bisect rfl).mpr ⟨rfl, rfl, hfield ▸ hone, hfield ▸ htwelve⟩
  | bisect hrst hst => 
    exact (controlInv_iff_of_bisect (by exact hst)).mpr ((controlInv_iff_of_bisect hst).mp hs)
  | bisectLast hrst hst =>
    obtain ⟨-, hw, hone, htwelve⟩ := (controlInv_iff_of_bisect hst).mp hs
    exact (controlInv_iff_of_emit rfl).mpr ⟨rfl, hw, hone, htwelve⟩
  | emit hrst hst hready hw hi hmore =>
    obtain ⟨hk, -, hlt, htwelve⟩ := (controlInv_iff_of_emit hst).mp hs
    have hnext : (s.i + 1).toNat < s.prec.toNat := by bv_omega
    exact (controlInv_iff_of_emit (by exact hst)).mpr ⟨hk, hw, hnext, htwelve⟩
  | emitLast hrst hst =>
    obtain ⟨hk, -, hlt, htwelve⟩ := (controlInv_iff_of_emit hst).mp hs
    have hone : 1 ≤ s.prec.toNat := by omega
    exact (controlInv_iff_of_idle_or_error (.inl rfl)).mpr ⟨hk, rfl, fun _ => ⟨hone, htwelve⟩⟩
  | errRsp hrst hst =>
    exact (controlInv_iff_of_idle_or_error (.inl rfl)).mpr ((controlInv_iff_of_idle_or_error (.inr hst)).mp hs)

/-- From a state that keeps the invariant no edge stops. -/
theorem State.ControlInv.exists_edgeStep {s : State} (hs : s.ControlInv) : ∃ t, EdgeStep s t := by
  by_cases hreset : s.pins.rst = true
  · exact ⟨_, .reset hreset rfl⟩
  have hrst := Bool.eq_false_of_not_eq_true hreset
  obtain hst | hst | hst | hst := hs.st_cases
  · by_cases hval : s.pins.reqValid = true
    · by_cases hok : precOk s.pins.reqPrec = true
      · exact ⟨_, .init hrst hst hval hok⟩
      · exact ⟨_, .reject hrst hst hval hok⟩
    · exact ⟨_, .idleWait hrst hst (Bool.eq_false_of_not_eq_true hval)⟩
  · obtain ⟨-, hw, -⟩ := (controlInv_iff_of_bisect hst).mp hs
    by_cases hk : s.k.toNat = 31
    · exact ⟨_, .bisectLast hrst hst hw hk⟩
    · exact ⟨_, .bisect hrst hst hw hk⟩
  · obtain ⟨-, hw, -⟩ := (controlInv_iff_of_emit hst).mp hs
    by_cases hready : s.pins.rspReady = true
    · by_cases hlast : s.i.toNat + 1 = s.prec.toNat
      · exact ⟨_, .emitLast hrst hst hready hw hs.i_le hlast⟩
      · exact ⟨_, .emit hrst hst hready hw hs.i_le hlast⟩
    · exact ⟨_, .hold hrst (.inl hst) (Bool.eq_false_of_not_eq_true hready)⟩
  · by_cases hready : s.pins.rspReady = true
    · exact ⟨_, .errRsp hrst hst hready⟩
    · exact ⟨_, .hold hrst (.inr hst) (Bool.eq_false_of_not_eq_true hready)⟩

/-! ### Whole commands and observations -/

theorem execEncode_keeps_controlInv {lat lon : F64} {prec : BitVec 32} {s t : State} (hs : s.ControlInv)
    (h : exec (.encode lat lon prec) s = .next t) : t.ControlInv := by
  obtain ⟨hst, hok, rfl⟩ | ⟨-, rfl⟩ | rfl := execEncode_next h
  · obtain ⟨hfield, hone, htwelve⟩ := precField_of_ok hok
    exact (controlInv_iff_of_idle_or_error (.inl (by exact hst))).mpr ⟨rfl, rfl, fun _ => ⟨hfield ▸ hone, hfield ▸ htwelve⟩⟩
  · exact hs
  · exact hs

theorem State.ControlInv.exists_execEncode {s : State} (hs : s.ControlInv) (lat lon : F64) (prec : BitVec 32) :
    ∃ t, exec (.encode lat lon prec) s = .next t := by
  by_cases hst : s.st = IDLE
  · by_cases hok : precOk prec = true
    · exact ⟨_, execEncode_of_ok lat lon hst hok⟩
    · exact ⟨_, execEncode_of_not_ok lat lon hst hok⟩
  · have hnamed : s.st ∈ namedStates := by simpa [namedStates] using hs.st_cases
    exact ⟨s, execEncode_of_busy lat lon prec hst (namedStates_not_reserved _ hnamed)⟩

/-- With the data registers written and an index of a character, every net can be observed. -/
theorem exists_execComb {s : State} (hw : s.written = true) (hi : s.i.toNat ≤ 11) (f : CombFn) :
    ∃ n, exec (decodeComb f) s = .next (s.setNets n) := by
  cases f with
  | interleave => exact ⟨_, readData_of_written hw _⟩
  | packSym | lutChar => exact ⟨_, (readData_of_written hw _).trans (withSym_of_le hi _)⟩

theorem execComb_of_unwritten {s : State} (hw : s.written = false) (f : CombFn) :
    exec (decodeComb f) s = .fault .unwrittenRead := by
  cases f with
  | interleave | packSym | lutChar => exact readData_of_unwritten hw _

/-! ### The obligation -/

/-- Settles O49: each of a step's three kinds keeps the invariant, and only an observation of unwritten registers stops. -/
theorem stepKeepsTheControlInvariant : Obligations.StepKeepsTheControlInvariant := by
  intro s hs
  obtain ⟨p, b, hstep⟩ | ⟨w, b, hstep⟩ | ⟨f, rest, b, hscript, hstep⟩ := step_cases s
  · have hdriven : (s.drive p b).ControlInv := hs
    obtain ⟨t, ht⟩ := hdriven.exists_edgeStep
    exact .inl ⟨t, hstep.trans (exec_selected_next.mpr ht), ht.keeps_controlInv hdriven⟩
  · have hmoved : (s.setBench b).ControlInv := hs
    obtain ⟨t, ht⟩ := hmoved.exists_execEncode (reqLat w) (reqLon w) (reqPrec w)
    exact .inl ⟨t, hstep.trans ht, execEncode_keeps_controlInv hmoved ht⟩
  · cases hw : s.written with
    | true =>
      obtain ⟨n, hn⟩ := exists_execComb (s := s.setBench b) hw hs.i_le f
      exact .inl ⟨_, hstep.trans hn, hs⟩
    | false => exact .inr ⟨rfl, ⟨f, rest, hscript⟩, hstep.trans (execComb_of_unwritten (s := s.setBench b) hw f)⟩

end Sys2Proof.Machine
end

section
/-! PROOFS. The bisector's invariant over every step (40_bisector.md R111, R112, R116, R118). -/

namespace Sys2Proof.Machine

/-! ### The invariant by the state of the sequencer -/

theorem bracketInv_iff_of_bisect {s : State} (hst : s.st = BISECT) :
    s.BracketInv ↔ (s.written = true → s.lat.OnGrid (-90) 90 s.k.toNat ∧ s.lon.OnGrid (-180) 180 s.k.toNat) := by
  rw [State.BracketInv, State.stepsMade, if_pos hst]

theorem bracketInv_iff_of_not_bisect {s : State} (hst : s.st ≠ BISECT) :
    s.BracketInv ↔ (s.written = true → s.lat.OnGrid (-90) 90 32 ∧ s.lon.OnGrid (-180) 180 32) := by
  rw [State.BracketInv, State.stepsMade, if_neg hst]

/-- Outside BISECT the invariant speaks of the data registers alone. -/
theorem State.BracketInv.of_same_data {s t : State} (hs : s.BracketInv) (hst : s.st ≠ BISECT) (htst : t.st ≠ BISECT)
    (hw : t.written = s.written) (hlat : t.lat = s.lat) (hlon : t.lon = s.lon) : t.BracketInv := by
  rw [bracketInv_iff_of_not_bisect htst, hw, hlat, hlon]
  exact (bracketInv_iff_of_not_bisect hst).mp hs

/-! ### Both lanes on their grids -/

theorem loads_onGrid (lat lon : F64) :
    (Lane.load lat latBracket).OnGrid (-90) 90 0 ∧ (Lane.load lon lonBracket).OnGrid (-180) 180 0 := by
  exact_mod_cast And.intro (load_lat_onGrid lat) (load_lon_onGrid lon)

theorem steps_onGrid {a o : Lane} {n : Nat} (hn : n < 32) (h : a.OnGrid (-90) 90 n ∧ o.OnGrid (-180) 180 n) :
    a.step.OnGrid (-90) 90 (n + 1) ∧ o.step.OnGrid (-180) 180 (n + 1) := by
  obtain ⟨hlat, hlon⟩ := h
  exact ⟨Lane.OnGrid.step (c := 90) (by norm_num) hn hlat, Lane.OnGrid.step (c := 180) (by norm_num) hn hlon⟩

theorem laneAfter_onGrid (lat lon : F64) :
    (laneAfter lat latBracket).OnGrid (-90) 90 32 ∧ (laneAfter lon lonBracket).OnGrid (-180) 180 32 := by
  rw [laneAfter_eq, laneAfter_eq]
  exact ⟨lat_steps_onGrid lat, lon_steps_onGrid lon⟩

/-! ### Every step keeps the invariant -/

theorem EdgeStep.keeps_bracketInv {s t : State} (h : EdgeStep s t) (hs : s.BracketInv) : t.BracketInv := by
  cases h with
  | reset hrst ht =>
    cases ht
    exact fun hw => absurd hw Bool.false_ne_true
  | idleWait | hold => exact hs
  | reject hrst hst => exact hs.of_same_data (by simp [hst]) (by simp) rfl rfl rfl
  | init => exact (bracketInv_iff_of_bisect rfl).mpr fun _ => loads_onGrid _ _
  | bisect hrst hst hw hk =>
    have hgrid := (bracketInv_iff_of_bisect hst).mp hs hw
    have hnext : (s.k + 1).toNat = s.k.toNat + 1 := by bv_omega
    rw [bracketInv_iff_of_bisect (by exact hst)]
    intro _
    simp only [hnext]
    exact steps_onGrid s.k.isLt hgrid
  | bisectLast hrst hst hw hk =>
    have hgrid := (bracketInv_iff_of_bisect hst).mp hs hw
    rw [hk] at hgrid
    exact (bracketInv_iff_of_not_bisect (by simp)).mpr fun _ => steps_onGrid (by norm_num) hgrid
  | emit hrst hst => exact hs.of_same_data (by simp [hst]) (by simp [hst]) rfl rfl rfl
  | emitLast hrst hst => exact hs.of_same_data (by simp [hst]) (by simp) rfl rfl rfl
  | errRsp hrst hst => exact hs.of_same_data (by simp [hst]) (by simp) rfl rfl rfl

theorem step_keeps_bracketInv {s t : State} (hs : s.BracketInv) (h : step s = .next t) : t.BracketInv := by
  obtain ⟨p, b, hedge⟩ | ⟨lat, lon, prec, b, henc⟩ | ⟨f, b, hcomb⟩ := step_next_cases h
  · exact hedge.keeps_bracketInv (s := s.drive p b) hs
  · obtain ⟨hst, -, rfl⟩ | ⟨-, rfl⟩ | rfl := execEncode_next henc
    · have hnot : (s.setBench b).st ≠ BISECT := hst ▸ IDLE_ne_BISECT
      exact (bracketInv_iff_of_not_bisect (by exact hnot)).mpr fun _ => laneAfter_onGrid lat lon
    · exact hs
    · exact hs
  · obtain ⟨-, n, rfl⟩ := execComb_next hcomb
    exact hs

/-- R111: on the grid the midpoint lies strictly inside, halfway. -/
theorem Lane.OnGrid.ordered {lo0 hi0 : ℚ} {n : Nat} {l : Lane} (h0 : lo0 < hi0) (h : l.OnGrid lo0 hi0 n) :
    f64Value l.lo < f64Value l.mid ∧ f64Value l.mid < f64Value l.hi ∧
      f64Value l.mid = (f64Value l.lo + f64Value l.hi) / 2 := by
  obtain ⟨-, -, -, -, -, hhi, hmid⟩ := h
  have hwidth : 0 < (hi0 - lo0) / 2 ^ n := div_pos (sub_pos.mpr h0) (by positivity)
  refine ⟨?_, ?_, ?_⟩ <;> linarith

/-! ### The obligations -/

/-- Settles O50: an INIT starts on the grid, a BISECT_STEP goes one level finer, ENCODE ends on the last level, and no other
row changes the lanes. -/
theorem stepKeepsTheBracketInvariant : Obligations.StepKeepsTheBracketInvariant :=
  fun _ _ _ hs h => step_keeps_bracketInv hs h

/-- Settles O33: after the step the lanes are on their grids, whose midpoints lie halfway between the ends. -/
theorem bracketsStayOrderedAroundTheirMidpoint : Obligations.BracketsStayOrderedAroundTheirMidpoint := by
  intro s t _ hs h hw l hl
  obtain ⟨hlat, hlon⟩ := step_keeps_bracketInv hs h hw
  obtain rfl | rfl := hl
  · exact hlat.ordered (by norm_num)
  · exact hlon.ordered (by norm_num)

/-- Settles O28: the row puts each lane's own step in the lane. -/
theorem lanesDoNotReadEachOther : Obligations.LanesDoNotReadEachOther := by
  intro s u t v ht hv
  obtain ⟨-, rfl⟩ := execBisectStep_next.mp ht
  obtain ⟨-, rfl⟩ := execBisectStep_next.mp hv
  obtain ⟨_, _, _, ht'⟩ := countStep_changes (s.setLanes s.lat.step s.lon.step)
  obtain ⟨_, _, _, hv'⟩ := countStep_changes (u.setLanes u.lat.step u.lon.step)
  rw [ht', hv']
  exact ⟨congrArg Lane.step, congrArg Lane.step⟩

/-- A finite datum's closed form reads its real value alone. -/
theorem closedForm_congr {v w : F64} (hv : f64IsFinite v = true) (hw : f64IsFinite w = true)
    (h : f64Value v = f64Value w) (lo0 hi0 : ℚ) (n : Nat) : closedForm v lo0 hi0 n = closedForm w lo0 hi0 n := by
  simp only [closedForm, f64IsFinite_not_nan, f64IsFinite_not_inf, hv, hw, h, Bool.false_eq_true, if_false]

/-- Settles O31: both zeros are finite with the same real value, so their direction words have the same closed form. -/
theorem signedZerosGiveTheSameBits : Obligations.SignedZerosGiveTheSameBits := by
  have hvalue : f64Value 0x8000000000000000 = f64Value 0x0000000000000000 := by
    rw [f64Value_eq_scaled, f64Value_eq_scaled, f64IsZero_mag (by decide), f64IsZero_mag (by decide)]
  have hform := closedForm_congr (by decide) (by decide) hvalue
  obtain ⟨hlat, -, hlon, -⟩ := directionWordHasItsClosedForm 0x8000000000000000
  obtain ⟨hlat', -, hlon', -⟩ := directionWordHasItsClosedForm 0x0000000000000000
  exact ⟨BitVec.eq_of_toNat_eq (by rw [hlat, hlat', hform]), BitVec.eq_of_toNat_eq (by rw [hlon, hlon', hform])⟩

end Sys2Proof.Machine
end

section
/-! PROOFS. The response as a function of the registers the bisection leaves (43_sequencer.md R170; 41_interleaver.md,
42_packer.md). -/

namespace Sys2Proof.Machine

/-! ### Sequences in registers -/

/-- The interleaved sequence by its positions, evens from the one list and odds from the other. -/
theorem interleaveSeq_getD {os as : List Bool} (hlen : os.length = as.length) (j : Nat) :
    (interleaveSeq os as).getD j false = if j % 2 = 0 then os.getD (j / 2) false else as.getD (j / 2) false := by
  induction os generalizing as j with
  | nil =>
    obtain rfl := List.eq_nil_of_length_eq_zero hlen.symm
    simp [interleaveSeq]
  | cons o os ih =>
    obtain ⟨a, as, rfl⟩ := List.exists_cons_of_length_eq_add_one hlen.symm
    match j with
    | 0 => rfl
    | 1 => rfl
    | j + 2 =>
      rw [interleaveSeq, List.getD_cons_succ, List.getD_cons_succ, ih (Nat.succ.inj hlen), Nat.add_mod_right,
        Nat.add_div_right _ two_pos, List.getD_cons_succ, List.getD_cons_succ]

/-- Shifting a sequence into a word puts its last element at bit 0. -/
theorem foldl_shiftConcat_getLsbD (d : List Bool) (w : DirWord) {n : Nat} (hn : n < 32) :
    (d.foldl (fun w b => w.shiftConcat b) w).getLsbD n =
      if n < d.length then d.getD (d.length - 1 - n) false else w.getLsbD (n - d.length) := by
  induction d generalizing w with
  | nil => simp
  | cons b d ih =>
    rw [List.foldl_cons, ih, List.length_cons]
    rcases Nat.lt_trichotomy n d.length with hlt | heq | hgt
    · rw [if_pos hlt, if_pos (by omega), show d.length + 1 - 1 - n = d.length - 1 - n + 1 by omega,
        List.getD_cons_succ]
    · rw [if_neg (by omega), if_pos (by omega), heq]
      simp
    · rw [if_neg (by omega), if_neg (by omega), BitVec.getLsbD_shiftConcat, if_neg (by omega)]
      simp [show n - d.length < 32 by omega, Nat.sub_sub]

/-- 10_state.md R29: step `n` is at bit `31 - n`. -/
theorem dirWord_getLsbD {d : List Bool} (hlen : d.length = 32) {n : Nat} (hn : n < 32) :
    (dirWord d).getLsbD (31 - n) = d.getD n false := by
  rw [dirWord, foldl_shiftConcat_getLsbD d 0 (by omega), hlen, if_pos (by omega), show 32 - 1 - (31 - n) = n by omega]

/-- 10_state.md R30: sequence position `j` is at bit `63 - j` of the interleaved word. -/
theorem interleave_dirWord_getLsbD {dlat dlon : List Bool} (hlat : dlat.length = 32) (hlon : dlon.length = 32) {j : Nat}
    (hj : j < 64) :
    (interleave (dirWord dlat) (dirWord dlon)).getLsbD (63 - j) = (interleaveSeq dlon dlat).getD j false := by
  rw [interleave_getLsbD _ _ (by omega), interleaveSeq_getD (hlon.trans hlat.symm), show (63 - j) / 2 = 31 - j / 2 by omega,
    dirWord_getLsbD hlat (by omega), dirWord_getLsbD hlon (by omega)]
  by_cases heven : j % 2 = 0
  · rw [if_pos heven, if_pos (by omega)]
  · rw [if_neg heven, if_neg (by omega)]

/-- The packer's loop computes the symbol of R170 from the interleaved word. -/
theorem packFrom_interleave_dirWord {dlat dlon : List Bool} (hlat : dlat.length = 32) (hlon : dlon.length = 32) {i : Nat}
    (hi : i ≤ 11) :
    packFrom (interleave (dirWord dlat) (dirWord dlon)) i 5 = seqSymbol (interleaveSeq dlon dlat) i := by
  have hbit : ∀ t < 5, ((interleave (dirWord dlat) (dirWord dlon)).getLsbD (63 - (5 * i + t))).toNat =
      seqBit (interleaveSeq dlon dlat) (5 * i + t) := fun t ht => by
    rw [interleave_dirWord_getLsbD hlat hlon (by omega), seqBit]
  simp only [packFrom, seqSymbol, hbit 0, hbit 1, hbit 2, hbit 3, hbit 4, Nat.reduceLT]
  rw [Nat.add_zero]
  omega

/-! ### The request's own sequence -/

/-- The interleaved word that the bisection of a request leaves. -/
def requestNet (lat lon : F64) : IlWord := interleave (laneAfter lat latBracket).dirs (laneAfter lon lonBracket).dirs

theorem packFrom_requestNet (lat lon : F64) {i : Nat} (hi : i ≤ 11) :
    packFrom (requestNet lat lon) i 5 = seqSymbol (requestSeq lat lon) i :=
  packFrom_interleave_dirWord (bisect_length _ _ _) (bisect_length _ _ _) hi

/-! ### The character beats -/

theorem charBeats_eq_map (il : IlWord) (prec : BitVec 4) (i n : Nat) :
    charBeats il prec i n =
      (List.range' i n).map fun j => charBeat (BitVec.ofNat 5 (packFrom il j 5)) (BitVec.ofNat 4 j) prec := by
  induction n generalizing i with
  | zero => rfl
  | succ n ih => rw [charBeats, ih, List.range'_succ, List.map_cons]

/-- The beat of a character, from the registers and from the sequence. -/
theorem charBeat_eq_seqBeat {lat lon : F64} {prec : BitVec 32} (hok : precOk prec = true) {i : Nat} (hi : i < prec.toNat) :
    charBeat (BitVec.ofNat 5 (packFrom (requestNet lat lon) i 5)) (BitVec.ofNat 4 i) (precField prec) =
      seqBeat (requestSeq lat lon) prec.toNat i := by
  obtain ⟨hfield, -, hle⟩ := precField_of_ok hok
  have hidx : (BitVec.ofNat 4 i).toNat = i := (BitVec.toNat_ofNat i 4).trans (Nat.mod_eq_of_lt (by omega))
  rw [packFrom_requestNet lat lon (by omega), charBeat, iLast, hidx, hfield, seqBeat]

/-- From the registers the bisection leaves, the block owes the response of R170. -/
theorem charBeats_requestNet (lat lon : F64) {prec : BitVec 32} (hok : precOk prec = true) :
    charBeats (requestNet lat lon) (precField prec) 0 prec.toNat = response lat lon prec := by
  rw [charBeats_eq_map, response_of_ok lat lon hok, List.range_eq_range']
  refine List.map_congr_left fun i hi => charBeat_eq_seqBeat hok ?_
  simpa using hi

end Sys2Proof.Machine
end

section
/-! PROOFS. Requests edge by edge (43_sequencer.md R170, R183, R184; 60_exceptions.md R211; 70_reset_and_hazards.md R240).

The registers and beats that a request in flight will leave, `State.settled`, are the same before and after every edge that
neither resets the block nor takes a request. -/

namespace Sys2Proof.Machine

/-! ### The beats owed, by the state of the sequencer -/

theorem owed_of_idle {s : State} (hst : s.st = IDLE) : s.owed = [] := by
  simp [State.owed, hst]

theorem owed_of_bisect {s : State} (hst : s.st = BISECT) :
    s.owed = charBeats (interleave (s.lat.steps (32 - s.k.toNat)).dirs (s.lon.steps (32 - s.k.toNat)).dirs) s.prec 0
      s.prec.toNat := if_pos hst

theorem owed_of_emit {s : State} (hst : s.st = EMIT) :
    s.owed = charBeats s.ilNet s.prec s.i.toNat (s.prec.toNat - s.i.toNat) := by
  simp [State.owed, hst]

theorem owed_of_error {s : State} (hst : s.st = ERROR) : s.owed = [errorBeat] := by
  simp [State.owed, hst]

/-- In EMIT the beat at hand is owed first. -/
theorem owed_of_emit_cons {s : State} (hst : s.st = EMIT) (hlt : s.i.toNat < s.prec.toNat) :
    s.owed = s.currentBeat :: charBeats s.ilNet s.prec (s.i.toNat + 1) (s.prec.toNat - (s.i.toNat + 1)) := by
  rw [owed_of_emit hst, show s.prec.toNat - s.i.toNat = s.prec.toNat - (s.i.toNat + 1) + 1 by omega, charBeats,
    BitVec.ofNat_toNat, BitVec.setWidth_eq, State.currentBeat]

/-! ### What the request in flight will leave -/

/-- The bisection steps still to come. -/
def State.stepsLeft (s : State) : Nat := if s.st = BISECT then 32 - s.k.toNat else 0

/-- The state that the request in flight will leave, its bisection done and all beats owed taken. -/
def State.settled (s : State) : State :=
  { s with
    st := IDLE, k := 0, i := 0, lat := s.lat.steps s.stepsLeft, lon := s.lon.steps s.stepsLeft, beats := s.beats ++ s.owed }

theorem stepsLeft_of_bisect {s : State} (hst : s.st = BISECT) : s.stepsLeft = 32 - s.k.toNat := if_pos hst

theorem stepsLeft_of_not_bisect {s : State} (hst : s.st ≠ BISECT) : s.stepsLeft = 0 := if_neg hst

theorem settled_of_bisect {s : State} (hst : s.st = BISECT) :
    s.settled = { s with
      st := IDLE, k := 0, i := 0, lat := s.lat.steps (32 - s.k.toNat), lon := s.lon.steps (32 - s.k.toNat),
      beats := s.beats ++ charBeats (interleave (s.lat.steps (32 - s.k.toNat)).dirs (s.lon.steps (32 - s.k.toNat)).dirs)
        s.prec 0 s.prec.toNat } := by
  rw [State.settled, stepsLeft_of_bisect hst, owed_of_bisect hst]

/-- Outside BISECT the lanes are those the request leaves. -/
theorem settled_of_not_bisect {s : State} (hst : s.st ≠ BISECT) :
    s.settled = { s with st := IDLE, k := 0, i := 0, beats := s.beats ++ s.owed } := by
  rw [State.settled, stepsLeft_of_not_bisect hst]
  rfl

theorem settled_of_idle {s : State} (hs : s.ControlInv) (hst : s.st = IDLE) : s.settled = s := by
  obtain ⟨hk, hi, -⟩ := (controlInv_iff_of_idle_or_error (.inl hst)).mp hs
  rw [settled_of_not_bisect (by simp [hst]), owed_of_idle hst, List.append_nil, ← hst, ← hk, ← hi]

/-! ### Edges that take no request keep it -/

theorem EdgeStep.settled_eq {s t : State} (h : EdgeStep s t) (hs : s.ControlInv) (hrst : s.pins.rst = false)
    (hno : ¬(s.st = IDLE ∧ s.pins.reqValid = true)) : t.settled = s.settled := by
  cases h with
  | reset hreset => exact absurd hreset (by simp [hrst])
  | idleWait | hold => rfl
  | reject _ hst hval | init _ hst hval => exact absurd ⟨hst, hval⟩ hno
  | bisect _ hst hw hk =>
    have hleft : 32 - s.k.toNat = 32 - (s.k + 1).toNat + 1 := by bv_omega
    rw [settled_of_bisect hst, settled_of_bisect (by exact hst), hleft]
    rfl
  | bisectLast _ hst hw hk =>
    rw [settled_of_bisect hst, settled_of_not_bisect (by simp), owed_of_emit rfl, hk]
    rfl
  | emit _ hst hready hw hi hmore =>
    obtain ⟨-, -, hlt, -⟩ := (controlInv_iff_of_emit hst).mp hs
    have hnext : (s.i + 1).toNat = s.i.toNat + 1 := by bv_omega
    rw [settled_of_not_bisect (s := s) (by simp [hst]), owed_of_emit_cons hst hlt, settled_of_not_bisect (by simp [hst]),
      owed_of_emit (by exact hst)]
    simp only [hnext, List.append_assoc, List.singleton_append]
    rfl
  | emitLast _ hst hready hw hi hlast =>
    obtain ⟨-, -, hlt, -⟩ := (controlInv_iff_of_emit hst).mp hs
    rw [settled_of_not_bisect (s := s) (by simp [hst]), owed_of_emit_cons hst hlt, settled_of_not_bisect (by simp),
      owed_of_idle rfl, hlast, Nat.sub_self, charBeats, List.append_nil]
  | errRsp _ hst =>
    rw [settled_of_not_bisect (s := s) (by simp [hst]), owed_of_error hst, settled_of_not_bisect (by simp),
      owed_of_idle rfl, List.append_nil]

/-! ### The start of a request -/

/-- R37: the block owes the response as soon as the request is taken. -/
theorem owed_startRequest (s : State) (lat lon : F64) {prec : BitVec 32} (hok : precOk prec = true) :
    (s.startRequest lat lon prec).owed = response lat lon prec := by
  rw [owed_of_bisect rfl, ← charBeats_requestNet lat lon hok, ← (precField_of_ok hok).1, requestNet, laneAfter_eq,
    laneAfter_eq]
  rfl

/-- R170: what the edges of a request will leave is what ENCODE answers. -/
theorem settled_startRequest {s : State} (hst : s.st = IDLE) (lat lon : F64) {prec : BitVec 32} (hok : precOk prec = true) :
    (s.startRequest lat lon prec).settled = s.answerRequest lat lon prec := by
  rw [State.settled, owed_startRequest s lat lon hok, stepsLeft_of_bisect rfl, State.answerRequest, laneAfter_eq,
    laneAfter_eq, ← hst]
  rfl

theorem startRequest_controlInv (s : State) (lat lon : F64) {prec : BitVec 32} (hok : precOk prec = true) :
    (s.startRequest lat lon prec).ControlInv := by
  obtain ⟨hfield, hone, htwelve⟩ := precField_of_ok hok
  exact (controlInv_iff_of_bisect rfl).mpr ⟨rfl, rfl, hfield ▸ hone, hfield ▸ htwelve⟩

/-! ### The reference schedule (R240) -/

theorem edgesLeft_of_bisect {s : State} (hst : s.st = BISECT) : s.edgesLeft = 32 - s.k.toNat + s.prec.toNat := if_pos hst

theorem edgesLeft_of_emit {s : State} (hst : s.st = EMIT) : s.edgesLeft = s.prec.toNat - s.i.toNat := by
  simp [State.edgesLeft, hst]

theorem edgesLeft_of_error {s : State} (hst : s.st = ERROR) : s.edgesLeft = 1 := by
  simp [State.edgesLeft, hst]

theorem edgesLeft_of_idle {s : State} (hst : s.st = IDLE) : s.edgesLeft = 0 := by
  simp [State.edgesLeft, hst]

theorem State.ControlInv.edgesLeft_eq_zero {s : State} (hs : s.ControlInv) : s.edgesLeft = 0 ↔ s.st = IDLE := by
  refine ⟨fun hleft => ?_, edgesLeft_of_idle⟩
  obtain hst | hst | hst | hst := hs.st_cases
  · exact hst
  · have := s.k.isLt
    rw [edgesLeft_of_bisect hst] at hleft
    omega
  · obtain ⟨-, -, hlt, -⟩ := (controlInv_iff_of_emit hst).mp hs
    rw [edgesLeft_of_emit hst] at hleft
    omega
  · rw [edgesLeft_of_error hst] at hleft
    omega

/-- With the consumer ready every edge of a busy block is one of those left. -/
theorem EdgeStep.edgesLeft_succ {s t : State} (h : EdgeStep s t) (hs : s.ControlInv) (hbusy : s.st ≠ IDLE)
    (hrst : s.pins.rst = false) (hready : s.pins.rspReady = true) : t.edgesLeft + 1 = s.edgesLeft := by
  cases h with
  | reset hreset => exact absurd hreset (by simp [hrst])
  | idleWait _ hst | reject _ hst | init _ hst => exact absurd hst hbusy
  | hold _ _ hwait => exact absurd hready (by simp [hwait])
  | bisect _ hst hw hk =>
    have hleft : 32 - s.k.toNat = 32 - (s.k + 1).toNat + 1 := by bv_omega
    rw [edgesLeft_of_bisect hst, edgesLeft_of_bisect (by exact hst), hleft]
    exact Nat.add_right_comm _ _ _
  | bisectLast _ hst hw hk =>
    rw [edgesLeft_of_bisect hst, edgesLeft_of_emit rfl, hk]
    exact Nat.add_comm _ 1
  | emit _ hst _ hw hi hmore =>
    obtain ⟨-, -, hlt, -⟩ := (controlInv_iff_of_emit hst).mp hs
    have hnext : (s.i + 1).toNat = s.i.toNat + 1 := by bv_omega
    rw [edgesLeft_of_emit hst, edgesLeft_of_emit (by exact hst)]
    simp only [hnext]
    omega
  | emitLast _ hst _ hw hi hlast =>
    rw [edgesLeft_of_emit hst, edgesLeft_of_idle rfl]
    omega
  | errRsp _ hst => rw [edgesLeft_of_error hst, edgesLeft_of_idle rfl]

/-- The edges left, or some of them, run with the consumer ready: each is possible, and what the request will leave stays
the same, the pins apart. -/
theorem runEdges_ready {ps : List Pins} {s : State} (hs : s.ControlInv)
    (hps : ∀ p ∈ ps, p.rst = false ∧ p.rspReady = true) (hlen : ps.length ≤ s.edgesLeft) :
    ∃ t, runEdges ps s = .next t ∧ t.ControlInv ∧ t.edgesLeft + ps.length = s.edgesLeft ∧
      t.settled = s.settled.withPins t.pins := by
  induction ps generalizing s with
  | nil => exact ⟨s, rfl, hs, rfl, rfl⟩
  | cons p ps ih =>
    rw [List.length_cons] at hlen
    obtain ⟨⟨hrst, hready⟩, hps⟩ := List.forall_mem_cons.mp hps
    have hbusy : s.st ≠ IDLE := fun hst => by
      rw [edgesLeft_of_idle hst] at hlen
      omega
    have hdriven : (s.withPins p).ControlInv := hs
    obtain ⟨u, hu⟩ := hdriven.exists_edgeStep
    have hleft : u.edgesLeft + 1 = s.edgesLeft := hu.edgesLeft_succ hdriven hbusy hrst hready
    have hsettled : u.settled = s.settled.withPins p := hu.settled_eq hdriven hrst fun h => hbusy h.1
    obtain ⟨t, hrun, ht, hcount, hkeep⟩ := ih (hu.keeps_controlInv hdriven) hps (by omega)
    refine ⟨t, ?_, ht, by rw [List.length_cons]; omega, hkeep.trans (by rw [hsettled]; rfl)⟩
    rw [runEdges, edge_next.mpr hu]
    exact hrun

end Sys2Proof.Machine
end

section
/-! PROOFS. The laws of a request at the level of edges, and the command ENCODE (43_sequencer.md R170 to R172, R184;
60_exceptions.md R205, R211; 70_reset_and_hazards.md R232, R236, R240). -/

namespace Sys2Proof.Machine

/-! ### Edges in a known state -/

theorem edge_init {p : Pins} {s : State} (hst : s.st = IDLE) (hrst : p.rst = false) (hval : p.reqValid = true)
    (hok : precOk p.reqPrec = true) :
    edge p s = .next ((s.withPins p).startRequest p.reqLat p.reqLon p.reqPrec) :=
  edge_next.mpr (.init (s := s.withPins p) hrst hst hval hok)

theorem edge_idleWait {p : Pins} {s : State} (hst : s.st = IDLE) (hrst : p.rst = false) (hval : p.reqValid = false) :
    edge p s = .next (s.withPins p) :=
  edge_next.mpr (.idleWait (s := s.withPins p) hrst hst hval)

theorem edge_hold {p : Pins} {s : State} (hst : s.st = EMIT ∨ s.st = ERROR) (hrst : p.rst = false)
    (hready : p.rspReady = false) : edge p s = .next (s.withPins p) :=
  edge_next.mpr (.hold (s := s.withPins p) hrst hst hready)

theorem edge_errRsp {p : Pins} {s : State} (hst : s.st = ERROR) (hrst : p.rst = false) (hready : p.rspReady = true) :
    edge p s = .next { s with pins := p, beats := s.beats ++ [errorBeat], st := IDLE } :=
  edge_next.mpr (.errRsp (s := s.withPins p) hrst hst hready)

/-! ### Handshakes and resets -/

/-- Settles O12: the selected row is INIT, REJECT or IDLE_WAIT by `req_valid` and `prec_ok`. -/
theorem precisionCheckDecidesTheHandshake : Obligations.PrecisionCheckDecidesTheHandshake := by
  intro s p hst hrst
  refine ⟨fun hval h1 h12 => ?_, fun hval hbad => ?_, fun hval => edge_idleWait hst hrst hval⟩
  · have hok := (precOk_iff p.reqPrec).mpr ⟨h1, h12⟩
    refine ⟨_, edge_init hst hrst hval hok, rfl, ?_, rfl, rfl, rfl⟩
    rw [toInt_of_precOk hok, ← (precField_of_ok hok).1]
    rfl
  · refine edge_reject hst hrst hval ?_
    rw [precOk_iff]
    omega

/-- Settles O43: INIT leaves a state that owes the response of R170, and REJECT one that owes the error beat. -/
theorem handshakeOwesTheResponse : Obligations.HandshakeOwesTheResponse := by
  intro s p hst hrst hval
  by_cases hok : precOk p.reqPrec = true
  · exact ⟨_, edge_init hst hrst hval hok, rfl, owed_startRequest _ _ _ hok⟩
  · refine ⟨_, edge_reject hst hrst hval hok, rfl, ?_⟩
    rw [owed_of_error rfl, response_of_not_ok _ _ hok]

/-- Settles O8: the row RESET touches no beat, and in IDLE none is owed. -/
theorem resetEdgeAbortsTheRequest : Obligations.ResetEdgeAbortsTheRequest := fun s _ hrst =>
  ⟨_, edge_of_rst s hrst, rfl, owed_of_idle rfl⟩

/-! ### The beats of a request -/

/-- Settles O44: what the request in flight will leave is kept, and its beats are those taken and those owed. -/
theorem edgesNeverLoseOrRepeatABeat : Obligations.EdgesNeverLoseOrRepeatABeat := by
  intro s t p hs hrst hno h
  have hsettled : t.settled = s.settled.withPins p := (edge_next.mp h).settled_eq hs hrst hno
  exact congrArg State.beats hsettled

/-- Settles O45: each edge is one of those left, none is left in IDLE alone, and no beat is owed there. -/
theorem requestEndsOnTheReferenceSchedule : Obligations.RequestEndsOnTheReferenceSchedule := by
  intro s ps hs hlen hps
  refine ⟨?_, fun n t hn hrun => ?_⟩
  · obtain ⟨t, hrun, ht, hcount, hsettled⟩ := runEdges_ready hs hps hlen.le
    have hidle : t.st = IDLE := ht.edgesLeft_eq_zero.mp (by omega)
    have hbeats : t.beats ++ t.owed = s.beats ++ s.owed := congrArg State.beats hsettled
    rw [owed_of_idle hidle, List.append_nil] at hbeats
    exact ⟨t, hrun, hidle, hbeats⟩
  · have htake : (ps.take n).length = n := List.length_take_of_le (by omega)
    have hready : ∀ p ∈ ps.take n, p.rst = false ∧ p.rspReady = true := fun p hp => hps p (List.mem_of_mem_take hp)
    obtain ⟨u, hu, -, hcount, -⟩ := runEdges_ready hs hready (by omega)
    obtain rfl : u = t := Host.Outcome.next.inj (hu.symm.trans hrun)
    intro hidle
    rw [edgesLeft_of_idle hidle] at hcount
    omega

/-! ### The command and its edges -/

/-- An accepted request, run to its end with the consumer ready, leaves what ENCODE answers. -/
theorem runEdges_request {s : State} {lat lon : F64} {prec : BitVec 32} (ready : Bool) {ps : List Pins}
    (hst : s.st = IDLE) (hok : precOk prec = true) (hlen : ps.length = 32 + prec.toNat)
    (hps : ∀ p ∈ ps, p.rst = false ∧ p.rspReady = true) :
    ∃ t, runEdges (requestPins lat lon prec ready :: ps) s = .next t ∧
      t = (s.answerRequest lat lon prec).withPins t.pins := by
  have hu := startRequest_controlInv (s.withPins (requestPins lat lon prec ready)) lat lon hok
  have hleft : ((s.withPins (requestPins lat lon prec ready)).startRequest lat lon prec).edgesLeft = 32 + prec.toNat := by
    rw [edgesLeft_of_bisect rfl, ← (precField_of_ok hok).1]
    rfl
  obtain ⟨t, hrun, ht, hcount, hsettled⟩ := runEdges_ready hu hps (by omega)
  have hidle : t.st = IDLE := ht.edgesLeft_eq_zero.mp (by omega)
  have hanswer := settled_startRequest (s := s.withPins (requestPins lat lon prec ready)) hst lat lon hok
  rw [settled_of_idle ht hidle, hanswer] at hsettled
  refine ⟨t, ?_, hsettled⟩
  rw [runEdges, edge_init hst rfl rfl hok]
  exact hrun

/-- A rejected request is one error beat, taken at the next edge with the consumer ready. -/
theorem runEdges_rejected {s : State} {lat lon : F64} {prec : BitVec 32} (ready : Bool) {p : Pins}
    (hst : s.st = IDLE) (hbad : ¬ precOk prec = true) (hrst : p.rst = false) (hready : p.rspReady = true) :
    runEdges [requestPins lat lon prec ready, p] s = .next ((s.takeBeats [errorBeat]).withPins p) := by
  rw [runEdges, edge_reject hst rfl rfl hbad]
  dsimp only
  rw [runEdges, edge_errRsp rfl hrst hready, ← hst]
  rfl

/-- Settles O42: the edges of a request leave what its first state was to leave, which is ENCODE's answer. -/
theorem edgesImplementTheEncodeCommand : Obligations.EdgesImplementTheEncodeCommand := by
  intro s lat lon prec ready ps hst hlen hps
  by_cases hok : precOk prec = true
  · rw [if_pos ((precOk_iff prec).mp hok)] at hlen
    obtain ⟨t, hrun, ht⟩ := runEdges_request ready hst hok hlen hps
    exact ⟨t, _, hrun, execEncode_of_ok lat lon hst hok, ht⟩
  · rw [if_neg (mt (precOk_iff prec).mpr hok)] at hlen
    obtain ⟨p, rfl⟩ := List.length_eq_one_iff.mp hlen
    obtain ⟨hrst, hready⟩ := hps p (List.mem_singleton_self p)
    exact ⟨_, _, runEdges_rejected ready hst hok hrst hready, execEncode_of_not_ok lat lon hst hok, rfl⟩

/-- Settles O41: outside IDLE, the command looks at `ST[2]` alone. -/
theorem encodeIsNotTakenWhileBusy : Obligations.EncodeIsNotTakenWhileBusy := by
  refine fun lat lon prec s => ⟨fun hbusy => ?_, execEncode_of_reserved lat lon prec⟩
  obtain hst | hst | hst := hbusy
  · exact execEncode_of_busy lat lon prec (by simp [hst]) (hst ▸ by decide)
  · exact execEncode_of_busy lat lon prec (by simp [hst]) (hst ▸ by decide)
  · exact execEncode_of_busy lat lon prec (by simp [hst]) (hst ▸ by decide)

/-- The request's sequence by its positions, from the two runs of BISECT. -/
theorem seqBit_requestSeq (lat lon : F64) (j : Nat) :
    seqBit (requestSeq lat lon) j =
      (if j % 2 = 0 then (bisect lon lonBracket 32).1.getD (j / 2) false
        else (bisect lat latBracket 32).1.getD (j / 2) false).toNat := by
  rw [seqBit, requestSeq, interleaveSeq_getD ((bisect_length _ _ _).trans (bisect_length _ _ _).symm)]
  rfl

theorem laneAfter_dirs_getLsbD (v : F64) (b : Bracket) {n : Nat} (hn : n < 32) :
    (laneAfter v b).dirs.getLsbD (31 - n) = (bisect v b 32).1.getD n false :=
  dirWord_getLsbD (bisect_length v b 32) hn

/-- Settles O40: the response's symbols are made of the two runs' bits, and the registers left are those of the runs. -/
theorem encodeAnswersItsResponse : Obligations.EncodeAnswersItsResponse := by
  intro lat lon prec s hst rlat rlon sq v
  have hrlat : rlat = bisect lat latBracket 32 := by rw [latBracket_eq]; rfl
  have hrlon : rlon = bisect lon lonBracket 32 := by rw [lonBracket_eq]; rfl
  clear_value rlat rlon
  subst hrlat hrlon
  have hv : ∀ i, seqSymbol (requestSeq lat lon) i = v i := fun i => by
    simp only [seqSymbol, seqBit_requestSeq, v, sq]
  refine ⟨fun h1 h12 => ?_, fun hbad => ?_⟩
  · have hok := (precOk_iff prec).mpr ⟨h1, h12⟩
    refine ⟨_, execEncode_of_ok lat lon hst hok, ?_, hst, rfl, rfl, ?_, rfl,
      rfl, rfl, rfl, rfl, fun n => laneAfter_dirs_getLsbD lat latBracket,
      rfl, rfl, rfl, rfl, fun n => laneAfter_dirs_getLsbD lon lonBracket, rfl, rfl, rfl, rfl⟩
    · rw [State.answerRequest, response_of_ok lat lon hok]
      refine congrArg (s.beats ++ ·) (List.map_congr_left fun i _ => ?_)
      rw [seqBeat, hv, beq_eq_decide]
    · rw [toInt_of_precOk hok, ← (precField_of_ok hok).1]
      rfl
  · refine execEncode_of_not_ok lat lon hst ?_
    rw [precOk_iff]
    omega

end Sys2Proof.Machine
end

section
/-! PROOFS. The frame of every row, and what a step reads (10_state.md R21, R27, R28; 30_encoding.md R82, R88). -/

namespace Sys2Proof.Machine

/-! ### Frames over every row -/

/-- Settles O23: each row answers the state with the fields its rules name written, and with no other. -/
theorem onlyTheNamingRowsWriteARegister : Obligations.OnlyTheNamingRowsWriteARegister := by
  intro i s t h
  cases i with
  | encode lat lon prec =>
    obtain ⟨-, -, rfl⟩ | ⟨-, rfl⟩ | rfl := execEncode_next h
    · simp [State.answerRequest]
    · simp
    · simp
  | reset | idleWait | reject | init | emitHold | errHold | errRsp =>
    cases h
    simp [State.enterInvalidPrecision, State.returnFromError]
  | reservedSt => cases h
  | bisectStep =>
    obtain ⟨-, rfl⟩ := execBisectStep_next.mp h
    obtain ⟨_, _, _, ht⟩ := countStep_changes (s.setLanes s.lat.step s.lon.step)
    simp [ht]
  | emitChar =>
    obtain ⟨-, -, rfl⟩ := execEmitChar_next.mp h
    obtain ⟨_, _, ht⟩ := countChar_changes (s.takeBeats [s.currentBeat])
    simp [ht]
  | interleave =>
    obtain ⟨-, n, rfl⟩ := execComb_next (f := .interleave) h
    simp
  | packSym =>
    obtain ⟨-, n, rfl⟩ := execComb_next (f := .packSym) h
    simp
  | lutChar =>
    obtain ⟨-, n, rfl⟩ := execComb_next (f := .lutChar) h
    simp

/-! ### Request programs (R88) -/

/-- With no move in the script a step is an edge of the request program. -/
theorem step_of_script_nil {s : State} (h : s.bench.script = []) :
    step s = exec (selected (present s)) (present s) := by
  rw [step, fetchWord, h]
  simp only [decode, decodeCtl_controlVector]

theorem present_of_script_nil {s : State} (h : s.bench.script = []) :
    present s = s.drive s.bench.pins (s.bench.advance (requestHandshake s.st s.bench.pins)) := by
  rw [present, h]

/-- A request is taken exactly when one is left, in IDLE, at an edge that is no reset edge. -/
theorem requestHandshake_program (st : BitVec 3) (b : Bench) :
    requestHandshake st b.pins = true ↔ b.requests ≠ [] ∧ st = IDLE ∧ b.edge ∉ b.resets := by
  simp [requestHandshake, reqReady, Bench.pins]

/-- Settles O22: the row leaves the program as it advanced, by the handshake at its pins. -/
theorem programRequestIsTakenOnlyInIdle : Obligations.ProgramRequestIsTakenOnlyInIdle := by
  intro s t hscript h
  rw [step_of_script_nil hscript] at h
  obtain ⟨-, hbench, -⟩ := onlyTheNamingRowsWriteARegister _ _ _ h
  rw [present_of_script_nil hscript, State.drive_bench] at hbench
  rw [hbench]
  refine ⟨hscript, rfl, fun hst hreset => ?_, fun hnot => ?_⟩
  · by_cases hnil : s.bench.requests = []
    · simp [Bench.advance, hnil]
    · exact if_pos ((requestHandshake_program _ _).mpr ⟨hnil, hst, hreset⟩)
  · refine if_neg fun htaken => ?_
    obtain ⟨-, hst, hreset⟩ := (requestHandshake_program _ _).mp htaken
    exact hnot.elim (absurd hst) (absurd · hreset)

/-! ### The host's moves (R82; log 6) -/

/-- Settles O5: a step runs the row its word decodes to, and each kind of move fixes the word and the pins. -/
theorem stepPerformsTheDecodedRow : Obligations.StepPerformsTheDecodedRow := by
  refine ⟨fun s i h => ?_, fun s p => ⟨rfl, rfl⟩, fun s w => ⟨rfl, rfl⟩, fun s f => ⟨rfl, rfl⟩⟩
  rw [step, h]

end Sys2Proof.Machine
end

section
/-! PROOFS. The payload rule of the beats taken, and the invariants after reset (43_sequencer.md R182; 60_exceptions.md R200;
10_state.md R35). -/

namespace Sys2Proof.Machine

/-! ### The beats that can be taken (R182, R200) -/

theorem errorBeat_wellFormed : errorBeat.wellFormed = true := by decide

theorem charBeat_wellFormed (v : Symbol) {i : BitVec 4} (prec : BitVec 4) (hi : i.toNat ≤ 11) :
    (charBeat v i prec).wellFormed = true := by
  simp [Beat.wellFormed, charBeat, hi]

theorem response_wellFormed (lat lon : F64) (prec : BitVec 32) : ∀ b ∈ response lat lon prec, b.wellFormed = true := by
  intro b hb
  by_cases hok : precOk prec = true
  · obtain ⟨-, -, hle⟩ := precField_of_ok hok
    rw [response_of_ok lat lon hok] at hb
    obtain ⟨i, hi, rfl⟩ := List.mem_map.mp hb
    have hlt := List.mem_range.mp hi
    rw [← charBeat_eq_seqBeat hok hlt]
    refine charBeat_wellFormed _ _ ?_
    rw [BitVec.toNat_ofNat]
    omega
  · rw [response_of_not_ok lat lon hok, List.mem_singleton] at hb
    exact hb ▸ errorBeat_wellFormed

/-- Well-formed beats may be added to the record. -/
theorem State.BeatsInv.append {s t : State} (hs : s.BeatsInv) {new : List Beat} (hnew : ∀ b ∈ new, b.wellFormed = true)
    (ht : t.beats = s.beats ++ new) : t.BeatsInv := by
  rw [State.BeatsInv, ht]
  exact List.forall_mem_append.mpr ⟨hs, hnew⟩

theorem EdgeStep.keeps_beatsInv {s t : State} (h : EdgeStep s t) (hs : s.BeatsInv) : t.BeatsInv := by
  cases h with
  | reset hrst ht =>
    cases ht
    exact hs
  | idleWait | hold | reject | init | bisect | bisectLast => exact hs
  | emit _ _ _ _ hi | emitLast _ _ _ _ hi =>
    exact hs.append (List.forall_mem_singleton.mpr (charBeat_wellFormed _ _ hi)) rfl
  | errRsp => exact hs.append (List.forall_mem_singleton.mpr errorBeat_wellFormed) rfl

/-- Settles O51: EMIT_CHAR adds a character beat, ERR_RSP the error beat, ENCODE a response, and no other row a beat. -/
theorem stepKeepsBeatsWellFormed : Obligations.StepKeepsBeatsWellFormed := by
  intro s t hs h
  obtain ⟨p, b, hedge⟩ | ⟨lat, lon, prec, b, henc⟩ | ⟨f, b, hcomb⟩ := step_next_cases h
  · exact hedge.keeps_beatsInv (s := s.drive p b) hs
  · obtain ⟨-, -, rfl⟩ | ⟨-, rfl⟩ | rfl := execEncode_next henc
    · exact hs.append (response_wellFormed lat lon prec) rfl
    · exact hs.append (List.forall_mem_singleton.mpr errorBeat_wellFormed) rfl
    · exact hs
  · obtain ⟨-, n, rfl⟩ := execComb_next hcomb
    exact hs

/-! ### The state after reset (R35) -/

/-- Settles O52: in IDLE with nothing written and no beat taken, the invariants ask for `K` and `I` to be 0 alone. -/
theorem resetStateKeepsTheInvariants : Obligations.ResetStateKeepsTheInvariants :=
  ⟨(controlInv_iff_of_idle_or_error (.inl rfl)).mpr ⟨rfl, rfl, fun hw => absurd hw Bool.false_ne_true⟩,
    fun hw => absurd hw Bool.false_ne_true, fun _ hb => absurd hb List.not_mem_nil⟩

end Sys2Proof.Machine
end

section
/-! PROOFS. The output ports (43_sequencer.md R182; 70_reset_and_hazards.md R238; 60_exceptions.md R211). -/

namespace Sys2Proof.Machine

/-! ### The status outputs by the state of the sequencer -/

theorem reqReady_iff (st : BitVec 3) (rst : Bool) : reqReady st rst = true ↔ st = IDLE ∧ rst = false := by
  simp [reqReady]

theorem rspValid_iff (st : BitVec 3) (rst : Bool) : rspValid st rst = true ↔ (st = EMIT ∨ st = ERROR) ∧ rst = false := by
  simp [rspValid]

theorem busy_iff (st : BitVec 3) : busy st = true ↔ st ≠ IDLE := bne_iff_ne

theorem rspErr_iff (st : BitVec 3) : rspErr st = true ↔ st = ERROR := beq_iff_eq

theorem rspCode_eq (st : BitVec 3) : rspCode st = if st = ERROR then 1 else 0 := by
  simp [rspCode]

/-! ### The payload outputs -/

/-- The payload fields show the payload's beat. -/
theorem outputs_of_payload {s : State} {b : Beat} (h : s.payload = some b) :
    s.outputs.rspSym = some b.sym ∧ s.outputs.rspChar = some b.char ∧ s.outputs.rspIdx = some b.idx ∧
      s.outputs.rspLast = some b.last := by
  simp [State.outputs, h]

theorem outputs_of_no_payload {s : State} (h : s.payload = none) :
    s.outputs.rspSym = none ∧ s.outputs.rspChar = none ∧ s.outputs.rspIdx = none ∧ s.outputs.rspLast = none := by
  simp [State.outputs, h]

/-- The payload reads no input port but `rst`. -/
theorem payload_withPins {s : State} {q : Pins} (h : q.rst = s.pins.rst) : (s.withPins q).payload = s.payload := by
  unfold State.payload
  rw [← h]
  rfl

/-! ### The obligations -/

/-- Settles O19: the status outputs read `ST` and `rst`, and the payload fields the payload of the cycle. -/
theorem outputEquationsHold : Obligations.OutputEquationsHold := by
  refine fun s => ⟨reqReady_iff _ _, rspValid_iff _ _, busy_iff _, rspErr_iff _, rspCode_eq _, ?_, ?_, ?_⟩
  · intro hst hrst hw hi
    obtain ⟨hsym, hchar, hidx, hlast⟩ :=
      outputs_of_payload ((payload_emit hst hrst hw).trans (congrArg (Option.map _) (symNet_of_le hi)))
    exact ⟨_, symNet_of_le hi, hsym, hchar, hidx, hlast.trans (congrArg some (iLast_eq_decide _ _))⟩
  · exact fun hst hrst => outputs_of_payload (payload_error hst hrst)
  · exact fun hvalid => outputs_of_no_payload (payload_of_not_valid hvalid)

/-- However many edges hold a presented beat, they leave the state with the last of their pins. -/
theorem runEdges_hold {ps : List Pins} {s : State} (hst : s.st = EMIT ∨ s.st = ERROR)
    (hps : ∀ p ∈ ps, p.rst = false ∧ p.rspReady = false) :
    ∃ q, runEdges ps s = .next (s.withPins q) ∧ (s.pins.rst = false → q.rst = false) := by
  induction ps generalizing s with
  | nil => exact ⟨s.pins, rfl, id⟩
  | cons p ps ih =>
    obtain ⟨⟨hrst, hready⟩, hps⟩ := List.forall_mem_cons.mp hps
    obtain ⟨q, hrun, hq⟩ := ih (s := s.withPins p) hst hps
    refine ⟨q, ?_, fun _ => hq hrst⟩
    rw [runEdges, edge_hold hst hrst hready]
    exact hrun

/-- Settles O20: the holding edges change the pins alone, of which the payload reads `rst`, and that stays low. -/
theorem heldBeatStaysPresented : Obligations.HeldBeatStaysPresented := by
  intro ps s hst hps
  obtain ⟨q, hrun, hq⟩ := runEdges_hold hst hps
  refine ⟨s.withPins q, hrun, rfl, fun hvalid => ?_⟩
  obtain ⟨-, hrst⟩ := (rspValid_iff _ _).mp hvalid
  exact ⟨(rspValid_iff _ _).mpr ⟨hst, hq hrst⟩, payload_withPins ((hq hrst).trans hrst.symm)⟩

/-- Settles O6: the state after reset is in IDLE with low pins, and the outputs follow. -/
theorem resetStateIsIdleAndReady : Obligations.ResetStateIsIdleAndReady :=
  ⟨rfl, rfl, rfl, rfl, rfl, rfl, rfl, rfl, rfl⟩

end Sys2Proof.Machine
end

section
/-! PROOFS. The COMB rows, and the stops of the rows that read data registers (42_packer.md R151, R154; 60_exceptions.md
R206). -/

namespace Sys2Proof.Machine

/-! ### The rows by the data registers and the index -/

theorem execInterleave_of_written {s : State} (hw : s.written = true) :
    exec .interleave s = .next { s with nets := { s.nets with il := s.ilNet } } := readData_of_written hw _

/-- A row that asks for a symbol reads the slice of the interleaved word. -/
theorem readSym_of_written {s : State} (hw : s.written = true) (hi : s.i.toNat ≤ 11) (go : Symbol → Result) :
    s.readData (s.withSym go) = go (s.ilNet.extractLsb' (59 - 5 * s.i.toNat) 5) := by
  rw [readData_of_written hw, withSym_of_le hi, packFrom_slice _ _ hi]

theorem readSym_past_end {s : State} (hw : s.written = true) (hi : 11 < s.i.toNat) (go : Symbol → Result) :
    s.readData (s.withSym go) = .fault .packPastEnd := by
  rw [readData_of_written hw, withSym_of_gt hi]

/-! ### The obligations -/

/-- Settles O38: the rows read the data registers, and two of them the symbol, before they write their net. -/
theorem combRowsObserveTheirNets : Obligations.CombRowsObserveTheirNets := fun _ =>
  ⟨execInterleave_of_written, fun hw hi => ⟨readSym_of_written hw hi _, readSym_of_written hw hi _⟩,
    fun hw hi => ⟨readSym_past_end hw hi _, readSym_past_end hw hi _⟩,
    fun hw => ⟨execComb_of_unwritten hw .interleave, execComb_of_unwritten hw .packSym, execComb_of_unwritten hw .lutChar⟩⟩

/-- Settles O18: each of the rows reads the data registers first, and three of them the symbol next. -/
theorem modelFaultsStandWhereTheRulesPutThem : Obligations.ModelFaultsStandWhereTheRulesPutThem := fun _ =>
  ⟨fun hw => ⟨readData_of_unwritten hw _, readData_of_unwritten hw _, readData_of_unwritten hw _,
    readData_of_unwritten hw _, readData_of_unwritten hw _⟩,
    fun hw hi => ⟨readSym_past_end hw hi _, readSym_past_end hw hi _, readSym_past_end hw hi _⟩⟩

/-- The top 60 bits of the interleaved word do not show the two lowest bits of either word. -/
theorem interleave_congr_high {a b c d : DirWord} (hlat : ∀ n, 2 ≤ n → n < 32 → a.getLsbD n = c.getLsbD n)
    (hlon : ∀ n, 2 ≤ n → n < 32 → b.getLsbD n = d.getLsbD n) {n : Nat} (hn : 4 ≤ n) (hn' : n < 64) :
    (interleave a b).getLsbD n = (interleave c d).getLsbD n := by
  rw [interleave_getLsbD _ _ hn', interleave_getLsbD _ _ hn', hlat _ (by omega) (by omega), hlon _ (by omega) (by omega)]

/-- Settles O39: the slices up to index 11 end at bit 4 of the interleaved word, above the bits of the finest two. -/
theorem finestBitsAreNeverRead : Obligations.FinestBitsAreNeverRead := by
  intro a b c d i hi hlat hlon
  rw [packSym_of_le _ hi, packSym_of_le _ hi, packFrom_slice _ _ hi, packFrom_slice _ _ hi]
  refine congrArg some (BitVec.eq_of_getLsbD_eq fun n hn => ?_)
  rw [BitVec.getLsbD_extractLsb', BitVec.getLsbD_extractLsb', interleave_congr_high hlat hlon (by omega) (by omega)]

end Sys2Proof.Machine
end

section
/-! PROOFS. Addition and division round to nearest, ties to even (40_bisector.md R101, R102). -/

namespace Sys2Proof.Machine

/-! ### Rounding below the overflow bound -/

/-- The sign of a rounded number, as a factor. -/
def signFactor (neg : Bool) : ℚ := if neg then -1 else 1

theorem abs_signFactor (neg : Bool) : |signFactor neg| = 1 := by
  cases neg <;> simp [signFactor]

theorem signFactor_bne (p q : Bool) : signFactor (p != q) = signFactor p / signFactor q := by
  cases p <;> cases q <;> simp [signFactor]

/-- An integer is its magnitude with its sign. -/
theorem signFactor_mul_natAbs (n : ℤ) : signFactor (decide (n < 0)) * (n.natAbs : ℚ) = n := by
  rw [Nat.cast_natAbs, signFactor]
  by_cases hn : n < 0
  · simp [hn, abs_of_neg hn]
  · simp [hn, abs_of_nonneg (not_lt.mp hn)]

/-- The overflow bound in units of 2^-1074 (`T` stands for 2044, so that no tactic evaluates the power). -/
theorem overflowBound_scaled {T : ℕ} (hT : T = 2044) : overflowBound * 2 ^ 1074 = (2 ^ 54 - 1) * 2 ^ T := by
  rw [overflowBound, hT, show 2044 = 970 + 1074 from rfl, show 1024 = 970 + 54 from rfl, pow_add, pow_add]
  generalize (2 : ℚ) ^ 970 = x, (2 : ℚ) ^ 1074 = y
  ring

theorem num_lt_of_lt_overflowBound {num den T : ℕ} (hden : 0 < den) (hT : T = 2044)
    (h : (num : ℚ) / den / 2 ^ 1074 < overflowBound) : num < (2 ^ 54 - 1) * 2 ^ T * den := by
  have hd : (0 : ℚ) < den := by exact_mod_cast hden
  rw [div_lt_iff₀ (by positivity), overflowBound_scaled hT, div_lt_iff₀ hd] at h
  have hcast : (((2 ^ 54 - 1) * 2 ^ T * den : ℕ) : ℚ) = (2 ^ 54 - 1) * 2 ^ T * den := by
    rw [Nat.cast_mul, Nat.cast_mul, Nat.cast_pow]
    norm_num
  exact_mod_cast hcast ▸ h

/-- A rounding of a number below the overflow bound delivers the datum nearest to it. -/
theorem f64Round_isRounded {x : ℚ} {neg : Bool} {num den : ℕ} (hden : 0 < den)
    (hx : x = signFactor neg * ((num : ℚ) / den / 2 ^ 1074)) (hbound : |x| < overflowBound) :
    IsRounded x (f64Round neg num den) := by
  have hpos : (0 : ℚ) ≤ (num : ℚ) / den / 2 ^ 1074 := by positivity
  rw [hx, abs_mul, abs_signFactor, one_mul, abs_of_nonneg hpos] at hbound
  rw [hx]
  exact f64Round_nearest neg num den 2044 hden rfl (num_lt_of_lt_overflowBound hden rfl hbound)

/-- A datum of exactly the number's value is its rounding. -/
theorem isRounded_of_exact {x : ℚ} {r : F64} (hfin : f64IsFinite r = true) (hval : f64Value r = x) : IsRounded x r := by
  refine ⟨hfin, fun c _ => ?_⟩
  rw [hval, sub_self, abs_zero]
  exact ⟨abs_nonneg _, fun heq hne => absurd (sub_eq_zero.mp (abs_eq_zero.mp heq.symm)).symm hne⟩

theorem f64IsZero_zero (neg : Bool) : f64IsZero (f64Zero neg) = true := by
  cases neg <;> decide

theorem f64Value_of_isZero {a : F64} (h : f64IsZero a = true) : f64Value a = 0 := by
  rw [f64Value_eq_scaled, f64IsZero_mag h, Int.cast_zero, zero_div]

/-! ### The operations on finite data -/

theorem f64Add_finite {a b : F64} (ha : f64IsFinite a = true) (hb : f64IsFinite b = true) :
    f64Add a b =
      if f64Scaled a + f64Scaled b = 0 then f64Zero (f64Sign a && f64Sign b)
      else f64Round (decide (f64Scaled a + f64Scaled b < 0)) (f64Scaled a + f64Scaled b).natAbs 1 := by
  simp only [f64Add, f64IsFinite_not_nan ha, f64IsFinite_not_nan hb, f64IsFinite_not_inf ha, f64IsFinite_not_inf hb,
    Bool.or_self, Bool.false_eq_true, if_false]

theorem f64Div_finite {a b : F64} (ha : f64IsFinite a = true) (hb : f64IsFinite b = true) (hz : f64IsZero b = false) :
    f64Div a b = f64Round (f64Sign a != f64Sign b) (f64Mag a <<< 1074) (f64Mag b) := by
  simp only [f64Div, f64IsFinite_not_nan ha, f64IsFinite_not_nan hb, f64IsFinite_not_inf ha, f64IsFinite_not_inf hb, hz,
    Bool.or_self, Bool.false_eq_true, if_false]

theorem f64Value_add (a b : F64) : f64Value a + f64Value b = ((f64Scaled a + f64Scaled b : ℤ) : ℚ) / 2 ^ 1074 := by
  rw [f64Value_eq_scaled, f64Value_eq_scaled, ← add_div, Int.cast_add]

theorem cast_shiftLeft (m k : ℕ) : ((m <<< k : ℕ) : ℚ) = m * 2 ^ k := by
  rw [Nat.shiftLeft_eq, Nat.cast_mul, Nat.cast_pow, Nat.cast_ofNat]

/-- The exact quotient, over the magnitudes in units of 2^-1074. -/
theorem f64Value_div (a b : F64) :
    f64Value a / f64Value b =
      signFactor (f64Sign a != f64Sign b) * (((f64Mag a <<< 1074 : ℕ) : ℚ) / f64Mag b / 2 ^ 1074) := by
  have hunit : (2 : ℚ) ^ 1074 ≠ 0 := pow_ne_zero _ two_ne_zero
  rw [f64Value_eq_mag, f64Value_eq_mag, signFactor_bne, cast_shiftLeft]
  generalize (2 : ℚ) ^ 1074 = u at hunit ⊢
  rw [mul_div_mul_comm, div_div_div_cancel_right₀ hunit, div_div, mul_div_mul_right _ _ hunit]
  rfl

/-! ### The obligations -/

/-- Settles O25: an exact zero sum is delivered, and any other is an integer of units that the rounding takes whole. -/
theorem additionRoundsToNearestEven : Obligations.AdditionRoundsToNearestEven := by
  intro a b ha hb hbound
  rw [f64Add_finite ha hb]
  split_ifs with hzero
  · refine isRounded_of_exact (f64IsZero_finite (f64IsZero_zero _)) ?_
    rw [f64Value_of_isZero (f64IsZero_zero _), f64Value_add, hzero, Int.cast_zero, zero_div]
  · refine f64Round_isRounded one_pos ?_ hbound
    rw [Nat.cast_one, div_one, ← mul_div_assoc, signFactor_mul_natAbs, f64Value_add]

/-- Settles O26: the rounding takes the exact quotient of the magnitudes. -/
theorem divisionRoundsToNearestEven : Obligations.DivisionRoundsToNearestEven := by
  intro a b ha hb hne hbound
  have hz : f64IsZero b = false := Bool.eq_false_iff.mpr fun h => hne (f64Value_of_isZero h)
  have hmag : 0 < f64Mag b := Nat.pos_of_ne_zero fun h => hne (by rw [f64Value_eq_mag, h, Nat.cast_zero, zero_div, mul_zero])
  rw [f64Div_finite ha hb hz]
  exact f64Round_isRounded hmag (f64Value_div a b) hbound

end Sys2Proof.Machine
end
